-- ==== Sys2Proof/Word.lean ====
section
/-! DEFINITION. The word types of c8e CORE: what the spec treats as bits (R8). -/

namespace Sys2Proof

/-- A general register, a timer, a memory byte, an immediate byte (R11, R20, R23, R62). -/
abbrev Byte := BitVec 8

/-- `I`, `PC`, a call-stack entry, an instruction word (R14, R15, R18, R61). -/
abbrev Word := BitVec 16

/-- The 12-bit immediate `NNN` (R62). -/
abbrev Addr12 := BitVec 12

/-- The 4-bit immediate `N` (R62). -/
abbrev Nibble := BitVec 4

/-- A general register's number, 0 to 15 (R11). -/
abbrev Reg := Fin 16

end Sys2Proof
end

