-- ==== Sys2Proof/Config.lean ====
section
/-! DEFINITION. What is fixed for the machine: the parameters of R5, the types of the open parameters of R7, the
commands of the host (R240), and the two free values: the random source and the host's choice of commands. The open
parameters' chosen values stand in Machine/Params.lean. -/

namespace Sys2Proof

/-- `KEYS` (R22): `true` means the key is down. -/
abbrev Keys := Vector Bool 16

/-- The five commands (R240) with their inputs. The `rand` input of STEP is the free value `Config.rand` (log 3). -/
inductive Command where
  | reset (trace strict : Bool)
  | load (bytes : List Byte)
  | setKeys (keys : Keys)
  | step
  | tick
deriving DecidableEq, Repr, Inhabited

end Sys2Proof

namespace Sys2Proof.Config

/-- `MEM_SIZE` (R5). -/
def memSize : Nat := 4096

/-- `FONT_BASE` (R5). -/
def fontBase : Nat := 0x050

/-- `FONT_GLYPH_BYTES` (R5). -/
def fontGlyphBytes : Nat := 5

/-- `FONT_GLYPHS` (R5). -/
def fontGlyphs : Nat := 16

/-- `PROGRAM_ORIGIN` (R5). -/
def programOrigin : Nat := 0x200

/-- `MAX_IMAGE` (R5). -/
def maxImage : Nat := memSize - programOrigin

/-- `FLAG_REG` (R5): `VF` is `V[15]`. -/
def flagReg : Reg := 15

/-- `STACK_DEPTH` (R5). -/
abbrev stackDepth : Nat := 16

/-- `INSTR_BYTES` (R5), as it is added to `PC`. -/
def instrBytes : Word := 2

/-- The type of the parameter `SHIFT_SOURCE` (R7): which register SHR and SHL shift. -/
inductive ShiftSource where
  | x
  | y
deriving DecidableEq, Repr

/-- The type of the parameter `FLAG_ORDER` (R7): which of the two writes of a flag-writing ALU instruction is last. -/
inductive FlagOrder where
  | flagLast
  | resultLast
deriving DecidableEq, Repr

/-- `Rand` (R7, R185, D13): the random byte of the `n`-th execution of RND, a free value under no law. It has no body,
so no statement can rest on what it is. Log 3. -/
opaque rand : Nat → Byte

/-- The `n`-th command a host issues of its own choice (R224, R240), a free value under no law: no interleaving of the
commands, endless TICKs among them, is left out. It has no body. Log 4. -/
opaque hostCommand : Nat → Command

end Sys2Proof.Config
end

