-- ==== Sys2Proof/Syntax.lean ====
section
/-! DEFINITION. The 33 instructions of R70, one constructor per row of spec/opcode_table.json and in its order, and
the assembler notation of R80. -/

namespace Sys2Proof

/-- An instruction with its operand fields (R62, R70). -/
inductive Instr where
  /-- 00E0 CLS (R170) -/
  | cls
  /-- 00EE RET (R100) -/
  | ret
  /-- 1NNN JP addr (R102) -/
  | jp (nnn : Addr12)
  /-- 2NNN CALL addr (R104) -/
  | call (nnn : Addr12)
  /-- 3XNN SE Vx, byte (R106) -/
  | seByte (x : Reg) (nn : Byte)
  /-- 4XNN SNE Vx, byte (R108) -/
  | sneByte (x : Reg) (nn : Byte)
  /-- 5XY0 SE Vx, Vy (R110) -/
  | seReg (x y : Reg)
  /-- 6XNN LD Vx, byte (R122) -/
  | ldByte (x : Reg) (nn : Byte)
  /-- 7XNN ADD Vx, byte (R124) -/
  | addByte (x : Reg) (nn : Byte)
  /-- 8XY0 LD Vx, Vy (R126) -/
  | ldReg (x y : Reg)
  /-- 8XY1 OR Vx, Vy (R128) -/
  | orReg (x y : Reg)
  /-- 8XY2 AND Vx, Vy (R129) -/
  | andReg (x y : Reg)
  /-- 8XY3 XOR Vx, Vy (R130) -/
  | xorReg (x y : Reg)
  /-- 8XY4 ADD Vx, Vy (R132) -/
  | addReg (x y : Reg)
  /-- 8XY5 SUB Vx, Vy (R134) -/
  | subReg (x y : Reg)
  /-- 8XY6 SHR Vx {, Vy} (R136) -/
  | shrReg (x y : Reg)
  /-- 8XY7 SUBN Vx, Vy (R138) -/
  | subnReg (x y : Reg)
  /-- 8XYE SHL Vx {, Vy} (R140) -/
  | shlReg (x y : Reg)
  /-- 9XY0 SNE Vx, Vy (R112) -/
  | sneReg (x y : Reg)
  /-- ANNN LD I, addr (R150) -/
  | ldI (nnn : Addr12)
  /-- CXNN RND Vx, byte (R185) -/
  | rnd (x : Reg) (nn : Byte)
  /-- DXYN DRW Vx, Vy, nibble (R173) -/
  | drw (x y : Reg) (n : Nibble)
  /-- EX9E SKP Vx (R186) -/
  | skp (x : Reg)
  /-- EXA1 SKNP Vx (R187) -/
  | sknp (x : Reg)
  /-- FX07 LD Vx, DT (R188) -/
  | ldVxDt (x : Reg)
  /-- FX0A LD Vx, K (R190) -/
  | ldVxK (x : Reg)
  /-- FX15 LD DT, Vx (R192) -/
  | ldDtVx (x : Reg)
  /-- FX18 LD ST, Vx (R194) -/
  | ldStVx (x : Reg)
  /-- FX1E ADD I, Vx (R152) -/
  | addI (x : Reg)
  /-- FX29 LD F, Vx (R154) -/
  | ldF (x : Reg)
  /-- FX33 LD B, Vx (R156) -/
  | ldB (x : Reg)
  /-- FX55 LD [I], Vx (R158) -/
  | ldMemVx (x : Reg)
  /-- FX65 LD Vx, [I] (R160) -/
  | ldVxMem (x : Reg)
deriving DecidableEq, Repr

/-- The assembler's mnemonics (R80). One mnemonic with different operand shapes is a different instruction. -/
inductive Mnemonic where
  | CLS | RET | JP | CALL | SE | SNE | LD | ADD | OR | AND | XOR | SUB | SHR | SUBN | SHL | RND | DRW | SKP | SKNP
deriving DecidableEq, Repr

/-- An operand as an assembler line writes it (R80): a register, a number, or a literal operand name that selects the
instruction and encodes nothing. -/
inductive Operand where
  | v (number : Nat)
  | num (value : Nat)
  | I
  | DT
  | ST
  | K
  | F
  | B
  /-- the operand written `[I]` -/
  | atI
deriving DecidableEq, Repr

/-- One assembler line: `MNEMONIC operand, operand, ...` (R80). -/
structure AsmLine where
  mnemonic : Mnemonic
  operands : List Operand
deriving DecidableEq, Repr

/-- What an assembler listing holds: a line, or the directive `DB b0, b1, ...` (R81). -/
inductive AsmItem where
  | line (l : AsmLine)
  | db (bytes : List Byte)
deriving DecidableEq, Repr

/-- How an instruction is written (R70, R80). -/
def Instr.toAsm : Instr → AsmLine
  | .cls => ⟨.CLS, []⟩
  | .ret => ⟨.RET, []⟩
  | .jp nnn => ⟨.JP, [.num nnn.toNat]⟩
  | .call nnn => ⟨.CALL, [.num nnn.toNat]⟩
  | .seByte x nn => ⟨.SE, [.v x, .num nn.toNat]⟩
  | .sneByte x nn => ⟨.SNE, [.v x, .num nn.toNat]⟩
  | .seReg x y => ⟨.SE, [.v x, .v y]⟩
  | .ldByte x nn => ⟨.LD, [.v x, .num nn.toNat]⟩
  | .addByte x nn => ⟨.ADD, [.v x, .num nn.toNat]⟩
  | .ldReg x y => ⟨.LD, [.v x, .v y]⟩
  | .orReg x y => ⟨.OR, [.v x, .v y]⟩
  | .andReg x y => ⟨.AND, [.v x, .v y]⟩
  | .xorReg x y => ⟨.XOR, [.v x, .v y]⟩
  | .addReg x y => ⟨.ADD, [.v x, .v y]⟩
  | .subReg x y => ⟨.SUB, [.v x, .v y]⟩
  | .shrReg x y => ⟨.SHR, [.v x, .v y]⟩
  | .subnReg x y => ⟨.SUBN, [.v x, .v y]⟩
  | .shlReg x y => ⟨.SHL, [.v x, .v y]⟩
  | .sneReg x y => ⟨.SNE, [.v x, .v y]⟩
  | .ldI nnn => ⟨.LD, [.I, .num nnn.toNat]⟩
  | .rnd x nn => ⟨.RND, [.v x, .num nn.toNat]⟩
  | .drw x y n => ⟨.DRW, [.v x, .v y, .num n.toNat]⟩
  | .skp x => ⟨.SKP, [.v x]⟩
  | .sknp x => ⟨.SKNP, [.v x]⟩
  | .ldVxDt x => ⟨.LD, [.v x, .DT]⟩
  | .ldVxK x => ⟨.LD, [.v x, .K]⟩
  | .ldDtVx x => ⟨.LD, [.DT, .v x]⟩
  | .ldStVx x => ⟨.LD, [.ST, .v x]⟩
  | .addI x => ⟨.ADD, [.I, .v x]⟩
  | .ldF x => ⟨.LD, [.F, .v x]⟩
  | .ldB x => ⟨.LD, [.B, .v x]⟩
  | .ldMemVx x => ⟨.LD, [.atI, .v x]⟩
  | .ldVxMem x => ⟨.LD, [.v x, .atI]⟩

end Sys2Proof
end

