-- ==== Sys2Proof/WellFormed.lean ====
section
/-! DEFINITION. Well-formedness: of an assembler line (R80: operand shapes and number ranges), and of an instruction.
An instruction's operand types hold exactly the values its fields encode (R62, R64), so every `Instr` is well-formed; the
checks that can fail are those of a line, and an instruction is well-formed when the line that writes it is. -/

namespace Sys2Proof

/-- A register is written `V0` to `VF` (R80, R11). -/
def isReg (n : Nat) : Bool := n < 16

/-- `addr` is a 12-bit number (R80). -/
def isAddr (n : Nat) : Bool := n < 4096

/-- `byte` is an 8-bit number (R80). -/
def isByte (n : Nat) : Bool := n < 256

/-- `nibble` is a 4-bit number (R80). -/
def isNibble (n : Nat) : Bool := n < 16

/-- The line has the operand shape of a row of R70 and every number is in its operand's range (R80). -/
def AsmLine.wellFormed : AsmLine → Bool
  | ⟨.CLS, []⟩ => true
  | ⟨.RET, []⟩ => true
  | ⟨.JP, [.num n]⟩ => isAddr n
  | ⟨.CALL, [.num n]⟩ => isAddr n
  | ⟨.SE, [.v x, .num n]⟩ => isReg x && isByte n
  | ⟨.SE, [.v x, .v y]⟩ => isReg x && isReg y
  | ⟨.SNE, [.v x, .num n]⟩ => isReg x && isByte n
  | ⟨.SNE, [.v x, .v y]⟩ => isReg x && isReg y
  | ⟨.LD, [.v x, .num n]⟩ => isReg x && isByte n
  | ⟨.LD, [.v x, .v y]⟩ => isReg x && isReg y
  | ⟨.LD, [.I, .num n]⟩ => isAddr n
  | ⟨.LD, [.v x, .DT]⟩ => isReg x
  | ⟨.LD, [.v x, .K]⟩ => isReg x
  | ⟨.LD, [.DT, .v x]⟩ => isReg x
  | ⟨.LD, [.ST, .v x]⟩ => isReg x
  | ⟨.LD, [.F, .v x]⟩ => isReg x
  | ⟨.LD, [.B, .v x]⟩ => isReg x
  | ⟨.LD, [.atI, .v x]⟩ => isReg x
  | ⟨.LD, [.v x, .atI]⟩ => isReg x
  | ⟨.ADD, [.v x, .num n]⟩ => isReg x && isByte n
  | ⟨.ADD, [.v x, .v y]⟩ => isReg x && isReg y
  | ⟨.ADD, [.I, .v x]⟩ => isReg x
  | ⟨.OR, [.v x, .v y]⟩ => isReg x && isReg y
  | ⟨.AND, [.v x, .v y]⟩ => isReg x && isReg y
  | ⟨.XOR, [.v x, .v y]⟩ => isReg x && isReg y
  | ⟨.SUB, [.v x, .v y]⟩ => isReg x && isReg y
  | ⟨.SHR, [.v x]⟩ => isReg x
  | ⟨.SHR, [.v x, .v y]⟩ => isReg x && isReg y
  | ⟨.SUBN, [.v x, .v y]⟩ => isReg x && isReg y
  | ⟨.SHL, [.v x]⟩ => isReg x
  | ⟨.SHL, [.v x, .v y]⟩ => isReg x && isReg y
  | ⟨.RND, [.v x, .num n]⟩ => isReg x && isByte n
  | ⟨.DRW, [.v x, .v y, .num n]⟩ => isReg x && isReg y && isNibble n
  | ⟨.SKP, [.v x]⟩ => isReg x
  | ⟨.SKNP, [.v x]⟩ => isReg x
  | _ => false

/-- An instruction is well-formed when the line that writes it is; the operand types make it so for every `Instr`. -/
def Instr.wellFormed (i : Instr) : Bool := i.toAsm.wellFormed

end Sys2Proof
end

