-- ==== Sys2Proof/Decode.lean ====
section
/-! DEFINITION. The instruction word's fields (R62), the decoder (R65), the opcode map as data and the encoder (R70),
the assembler (R80, R81), and the host's reading of a table word. The opcode numbers, the field positions and the bits compared are
the spec's, which marks them general knowledge: log 9. -/

namespace Sys2Proof

/-- Two bytes as a word, the byte at the lower address in the high half (R42). -/
def wordOfBytes (hi lo : Byte) : Word := hi ++ lo

/-- `w[15:8]`, the byte at the lower address (R42, R81). -/
def hiByte (w : Word) : Byte := w.extractLsb' 8 8

/-- `w[7:0]`, the byte at the higher address (R42, R81). -/
def loByte (w : Word) : Byte := w.extractLsb' 0 8

/-- Field `op`, `w[15:12]` (R62). -/
def fieldOp (w : Word) : BitVec 4 := w.extractLsb' 12 4

/-- Field `X`, `w[11:8]` (R62). -/
def fieldX (w : Word) : Reg := (w.extractLsb' 8 4).toFin

/-- Field `Y`, `w[7:4]` (R62). -/
def fieldY (w : Word) : Reg := (w.extractLsb' 4 4).toFin

/-- Field `N`, `w[3:0]` (R62). -/
def fieldN (w : Word) : Nibble := w.extractLsb' 0 4

/-- Field `NN`, `w[7:0]` (R62). -/
def fieldNN (w : Word) : Byte := w.extractLsb' 0 8

/-- Field `NNN`, `w[11:0]` (R62). -/
def fieldNNN (w : Word) : Addr12 := w.extractLsb' 0 12

/-- Why the decoder gives no instruction: the families of unrecognised words of R76, and a byte list too short to
hold a word (R61). -/
inductive Unrecognised where
  /-- `0NNN` other than 00E0 and 00EE -/
  | family0
  /-- `5XYN` with N not 0 -/
  | family5
  /-- `8XYN` with N in 8 to D or F -/
  | family8
  /-- `9XYN` with N not 0 -/
  | family9
  /-- every `BNNN` -/
  | familyB
  /-- `EXNN` with NN neither 9E nor A1 -/
  | familyE
  /-- `FXNN` with NN none of the nine selectors -/
  | familyF
  /-- fewer than two bytes -/
  | truncated
deriving DecidableEq, Repr

/-- What the decoder answers. -/
inductive Decoded where
  | instr (i : Instr)
  | rejected (why : Unrecognised)
deriving DecidableEq, Repr

/-- Family 0 compares the whole word (R65). -/
def decode0 (w : Word) : Decoded :=
  if w = 0x00E0#16 then .instr .cls
  else if w = 0x00EE#16 then .instr .ret
  else .rejected .family0

/-- Family 8 compares `op` and `N` (R65, R70). -/
def decode8 (w : Word) : Decoded :=
  match fieldN w with
  | 0x0#4 => .instr (.ldReg (fieldX w) (fieldY w))
  | 0x1#4 => .instr (.orReg (fieldX w) (fieldY w))
  | 0x2#4 => .instr (.andReg (fieldX w) (fieldY w))
  | 0x3#4 => .instr (.xorReg (fieldX w) (fieldY w))
  | 0x4#4 => .instr (.addReg (fieldX w) (fieldY w))
  | 0x5#4 => .instr (.subReg (fieldX w) (fieldY w))
  | 0x6#4 => .instr (.shrReg (fieldX w) (fieldY w))
  | 0x7#4 => .instr (.subnReg (fieldX w) (fieldY w))
  | 0xE#4 => .instr (.shlReg (fieldX w) (fieldY w))
  | _ => .rejected .family8

/-- Family E compares `op` and `NN` (R65, R70). -/
def decodeE (w : Word) : Decoded :=
  match fieldNN w with
  | 0x9E#8 => .instr (.skp (fieldX w))
  | 0xA1#8 => .instr (.sknp (fieldX w))
  | _ => .rejected .familyE

/-- Family F compares `op` and `NN` (R65, R70). -/
def decodeF (w : Word) : Decoded :=
  match fieldNN w with
  | 0x07#8 => .instr (.ldVxDt (fieldX w))
  | 0x0A#8 => .instr (.ldVxK (fieldX w))
  | 0x15#8 => .instr (.ldDtVx (fieldX w))
  | 0x18#8 => .instr (.ldStVx (fieldX w))
  | 0x1E#8 => .instr (.addI (fieldX w))
  | 0x29#8 => .instr (.ldF (fieldX w))
  | 0x33#8 => .instr (.ldB (fieldX w))
  | 0x55#8 => .instr (.ldMemVx (fieldX w))
  | 0x65#8 => .instr (.ldVxMem (fieldX w))
  | _ => .rejected .familyF

/-- Decode (R65): the top 4 bits as a primary family, then the selector of the families that have one. Total; every
word outside the rows of R70 is rejected by the name of its family in R76. -/
def decode (w : Word) : Decoded :=
  match fieldOp w with
  | 0x0#4 => decode0 w
  | 0x1#4 => .instr (.jp (fieldNNN w))
  | 0x2#4 => .instr (.call (fieldNNN w))
  | 0x3#4 => .instr (.seByte (fieldX w) (fieldNN w))
  | 0x4#4 => .instr (.sneByte (fieldX w) (fieldNN w))
  | 0x5#4 => if fieldN w = 0#4 then .instr (.seReg (fieldX w) (fieldY w)) else .rejected .family5
  | 0x6#4 => .instr (.ldByte (fieldX w) (fieldNN w))
  | 0x7#4 => .instr (.addByte (fieldX w) (fieldNN w))
  | 0x8#4 => decode8 w
  | 0x9#4 => if fieldN w = 0#4 then .instr (.sneReg (fieldX w) (fieldY w)) else .rejected .family9
  | 0xA#4 => .instr (.ldI (fieldNNN w))
  | 0xC#4 => .instr (.rnd (fieldX w) (fieldNN w))
  | 0xD#4 => .instr (.drw (fieldX w) (fieldY w) (fieldN w))
  | 0xE#4 => decodeE w
  | 0xF#4 => decodeF w
  | _ => .rejected .familyB

/-- Decode the first two bytes of a list, the high byte first (R42, R61). -/
def decodeBytes : List Byte → Decoded
  | hi :: lo :: _ => decode (wordOfBytes hi lo)
  | _ => .rejected .truncated

/-! ## The encoder -/

/-- A register number as a 4-bit field (R62). -/
def regField (r : Reg) : BitVec 4 := BitVec.ofFin r

/-- Format `A` (R63). -/
def formatA (op : BitVec 4) (nnn : Addr12) : Word := op ++ nnn

/-- Formats `XI` and `XF` (R63): a register and the low byte. -/
def formatX (op : BitVec 4) (x : Reg) (low : Byte) : Word := op ++ regField x ++ low

/-- Formats `XY` and `XYN` (R63): two registers and the low nibble. -/
def formatXY (op : BitVec 4) (x y : Reg) (low : Nibble) : Word := op ++ regField x ++ regField y ++ low

/-- The word of an instruction (R63, R70). -/
def encode : Instr → Word
  | .cls => 0x00E0#16
  | .ret => 0x00EE#16
  | .jp nnn => formatA 0x1#4 nnn
  | .call nnn => formatA 0x2#4 nnn
  | .seByte x nn => formatX 0x3#4 x nn
  | .sneByte x nn => formatX 0x4#4 x nn
  | .seReg x y => formatXY 0x5#4 x y 0x0#4
  | .ldByte x nn => formatX 0x6#4 x nn
  | .addByte x nn => formatX 0x7#4 x nn
  | .ldReg x y => formatXY 0x8#4 x y 0x0#4
  | .orReg x y => formatXY 0x8#4 x y 0x1#4
  | .andReg x y => formatXY 0x8#4 x y 0x2#4
  | .xorReg x y => formatXY 0x8#4 x y 0x3#4
  | .addReg x y => formatXY 0x8#4 x y 0x4#4
  | .subReg x y => formatXY 0x8#4 x y 0x5#4
  | .shrReg x y => formatXY 0x8#4 x y 0x6#4
  | .subnReg x y => formatXY 0x8#4 x y 0x7#4
  | .shlReg x y => formatXY 0x8#4 x y 0xE#4
  | .sneReg x y => formatXY 0x9#4 x y 0x0#4
  | .ldI nnn => formatA 0xA#4 nnn
  | .rnd x nn => formatX 0xC#4 x nn
  | .drw x y n => formatXY 0xD#4 x y n
  | .skp x => formatX 0xE#4 x 0x9E#8
  | .sknp x => formatX 0xE#4 x 0xA1#8
  | .ldVxDt x => formatX 0xF#4 x 0x07#8
  | .ldVxK x => formatX 0xF#4 x 0x0A#8
  | .ldDtVx x => formatX 0xF#4 x 0x15#8
  | .ldStVx x => formatX 0xF#4 x 0x18#8
  | .addI x => formatX 0xF#4 x 0x1E#8
  | .ldF x => formatX 0xF#4 x 0x29#8
  | .ldB x => formatX 0xF#4 x 0x33#8
  | .ldMemVx x => formatX 0xF#4 x 0x55#8
  | .ldVxMem x => formatX 0xF#4 x 0x65#8

/-- The two bytes of an instruction in memory order (R81). -/
def encodeBytes (i : Instr) : List Byte := [hiByte (encode i), loByte (encode i)]

/-! ## The opcode map as data -/

/-- A row of R70: a word selects the row when `w AND mask = pattern`. -/
structure OpcodeRow where
  pattern : Word
  mask : Word
deriving DecidableEq, Repr

/-- The row matches the word (R65). -/
def OpcodeRow.matchesWord (r : OpcodeRow) (w : Word) : Bool := w &&& r.mask = r.pattern

/-- The 33 rows of R70, in its order (columns `match` and `mask`). -/
def opcodeTable : List OpcodeRow :=
  [⟨0x00E0, 0xFFFF⟩, ⟨0x00EE, 0xFFFF⟩, ⟨0x1000, 0xF000⟩, ⟨0x2000, 0xF000⟩, ⟨0x3000, 0xF000⟩, ⟨0x4000, 0xF000⟩,
   ⟨0x5000, 0xF00F⟩, ⟨0x6000, 0xF000⟩, ⟨0x7000, 0xF000⟩] ++
  [⟨0x8000, 0xF00F⟩, ⟨0x8001, 0xF00F⟩, ⟨0x8002, 0xF00F⟩, ⟨0x8003, 0xF00F⟩, ⟨0x8004, 0xF00F⟩, ⟨0x8005, 0xF00F⟩,
   ⟨0x8006, 0xF00F⟩, ⟨0x8007, 0xF00F⟩, ⟨0x800E, 0xF00F⟩, ⟨0x9000, 0xF00F⟩] ++
  [⟨0xA000, 0xF000⟩, ⟨0xC000, 0xF000⟩, ⟨0xD000, 0xF000⟩, ⟨0xE09E, 0xF0FF⟩, ⟨0xE0A1, 0xF0FF⟩] ++
  [⟨0xF007, 0xF0FF⟩, ⟨0xF00A, 0xF0FF⟩, ⟨0xF015, 0xF0FF⟩, ⟨0xF018, 0xF0FF⟩, ⟨0xF01E, 0xF0FF⟩, ⟨0xF029, 0xF0FF⟩,
   ⟨0xF033, 0xF0FF⟩, ⟨0xF055, 0xF0FF⟩, ⟨0xF065, 0xF0FF⟩]

/-- The position of an instruction's row in R70, counted from 0. -/
def Instr.rowIndex : Instr → Nat
  | .cls => 0
  | .ret => 1
  | .jp _ => 2
  | .call _ => 3
  | .seByte _ _ => 4
  | .sneByte _ _ => 5
  | .seReg _ _ => 6
  | .ldByte _ _ => 7
  | .addByte _ _ => 8
  | .ldReg _ _ => 9
  | .orReg _ _ => 10
  | .andReg _ _ => 11
  | .xorReg _ _ => 12
  | .addReg _ _ => 13
  | .subReg _ _ => 14
  | .shrReg _ _ => 15
  | .subnReg _ _ => 16
  | .shlReg _ _ => 17
  | .sneReg _ _ => 18
  | .ldI _ => 19
  | .rnd _ _ => 20
  | .drw _ _ _ => 21
  | .skp _ => 22
  | .sknp _ => 23
  | .ldVxDt _ => 24
  | .ldVxK _ => 25
  | .ldDtVx _ => 26
  | .ldStVx _ => 27
  | .addI _ => 28
  | .ldF _ => 29
  | .ldB _ => 30
  | .ldMemVx _ => 31
  | .ldVxMem _ => 32

/-! ## The assembler -/

/-- A register operand, if it is one of `V0` to `VF` (R80). -/
def asReg (n : Nat) : Option Reg := if h : n < 16 then some ⟨n, h⟩ else none

/-- A number operand of `k` bits, if it fits (R80). -/
def asBits (k n : Nat) : Option (BitVec k) := if n < 2 ^ k then some (BitVec.ofNat k n) else none

/-- The instruction of a line with one register and one byte. -/
def asmRegByte (mk : Reg → Byte → Instr) (x n : Nat) : Option Instr :=
  (asReg x).bind fun rx => (asBits 8 n).map (mk rx)

/-- The instruction of a line with two registers. -/
def asmRegReg (mk : Reg → Reg → Instr) (x y : Nat) : Option Instr :=
  (asReg x).bind fun rx => (asReg y).map (mk rx)

/-- Assemble one line; `SHR Vx` and `SHL Vx` without a second register have Y = 0 (R80). -/
def assemble : AsmLine → Option Instr
  | ⟨.CLS, []⟩ => some .cls
  | ⟨.RET, []⟩ => some .ret
  | ⟨.JP, [.num n]⟩ => (asBits 12 n).map .jp
  | ⟨.CALL, [.num n]⟩ => (asBits 12 n).map .call
  | ⟨.SE, [.v x, .num n]⟩ => asmRegByte .seByte x n
  | ⟨.SE, [.v x, .v y]⟩ => asmRegReg .seReg x y
  | ⟨.SNE, [.v x, .num n]⟩ => asmRegByte .sneByte x n
  | ⟨.SNE, [.v x, .v y]⟩ => asmRegReg .sneReg x y
  | ⟨.LD, [.v x, .num n]⟩ => asmRegByte .ldByte x n
  | ⟨.LD, [.v x, .v y]⟩ => asmRegReg .ldReg x y
  | ⟨.LD, [.I, .num n]⟩ => (asBits 12 n).map .ldI
  | ⟨.LD, [.v x, .DT]⟩ => (asReg x).map .ldVxDt
  | ⟨.LD, [.v x, .K]⟩ => (asReg x).map .ldVxK
  | ⟨.LD, [.DT, .v x]⟩ => (asReg x).map .ldDtVx
  | ⟨.LD, [.ST, .v x]⟩ => (asReg x).map .ldStVx
  | ⟨.LD, [.F, .v x]⟩ => (asReg x).map .ldF
  | ⟨.LD, [.B, .v x]⟩ => (asReg x).map .ldB
  | ⟨.LD, [.atI, .v x]⟩ => (asReg x).map .ldMemVx
  | ⟨.LD, [.v x, .atI]⟩ => (asReg x).map .ldVxMem
  | ⟨.ADD, [.v x, .num n]⟩ => asmRegByte .addByte x n
  | ⟨.ADD, [.v x, .v y]⟩ => asmRegReg .addReg x y
  | ⟨.ADD, [.I, .v x]⟩ => (asReg x).map .addI
  | ⟨.OR, [.v x, .v y]⟩ => asmRegReg .orReg x y
  | ⟨.AND, [.v x, .v y]⟩ => asmRegReg .andReg x y
  | ⟨.XOR, [.v x, .v y]⟩ => asmRegReg .xorReg x y
  | ⟨.SUB, [.v x, .v y]⟩ => asmRegReg .subReg x y
  | ⟨.SHR, [.v x]⟩ => (asReg x).map fun rx => .shrReg rx 0
  | ⟨.SHR, [.v x, .v y]⟩ => asmRegReg .shrReg x y
  | ⟨.SUBN, [.v x, .v y]⟩ => asmRegReg .subnReg x y
  | ⟨.SHL, [.v x]⟩ => (asReg x).map fun rx => .shlReg rx 0
  | ⟨.SHL, [.v x, .v y]⟩ => asmRegReg .shlReg x y
  | ⟨.RND, [.v x, .num n]⟩ => asmRegByte .rnd x n
  | ⟨.DRW, [.v x, .v y, .num n]⟩ =>
    (asReg x).bind fun rx => (asReg y).bind fun ry => (asBits 4 n).map (.drw rx ry)
  | ⟨.SKP, [.v x]⟩ => (asReg x).map .skp
  | ⟨.SKNP, [.v x]⟩ => (asReg x).map .sknp
  | _ => none

/-- The bytes of one item of a listing (R81). -/
def AsmItem.bytes : AsmItem → Option (List Byte)
  | .line l => (assemble l).map encodeBytes
  | .db bs => some bs

/-- The image of a listing: its items at consecutive addresses (R81). -/
def assembleImage : List AsmItem → Option (List Byte)
  | [] => some []
  | item :: rest => item.bytes.bind fun b => (assembleImage rest).map (b ++ ·)

/-! ## The host's reading of a table word -/

/-- The word of a table row's bits, if they are at most the 16 bits an instruction has (R61). Log 12. -/
def tableWord (nbits w : Nat) : Option Word :=
  if nbits ≤ 16 then some (BitVec.ofNat 16 (w % 2 ^ nbits)) else none

/-- The instruction the decoder reads from a table row's bits, laid out as the block stores them: high byte first
(R42). -/
def decodeTableWord (nbits w : Nat) : Option Instr :=
  match tableWord nbits w with
  | none => none
  | some word =>
    match decodeBytes [hiByte word, loByte word] with
    | .instr i => some i
    | .rejected _ => none

end Sys2Proof
end

