-- ==== Sys2Proof/Machine/State.lean ====
section
/-! DEFINITION. The state of the block (R10), the host's schedule (R224, R240), reset (R29), and the reasons a step of
the model can stop without a next state. -/

namespace Sys2Proof.Machine

open Sys2Proof

/-- `MEM` (R23, R40): the bytes that differ from what an unlisted address reads as (`Memory.unlisted`), by rising
address. -/
abbrev Memory := List Host.Cell

/-- `FB` (R21): 32 rows of 64 pixels, row 0 at the top, column 0 at the left. -/
abbrev Pixels := Vector (Vector Bool 64) 32

/-- The cause codes of R200. -/
inductive FaultCause where
  /-- 0: no fault since RESET -/
  | none
  /-- 1 (R201) -/
  | unknownInstruction
  /-- 2 (R202) -/
  | stackOverflow
  /-- 3 (R203) -/
  | stackUnderflow
  /-- 4 (R204) -/
  | addressFault
  /-- 5 (R205) -/
  | keyIndexFault
deriving DecidableEq, Repr

/-- The code of a cause (R200, D27). -/
def FaultCause.code : FaultCause → Nat
  | .none => 0
  | .unknownInstruction => 1
  | .stackOverflow => 2
  | .stackUnderflow => 3
  | .addressFault => 4
  | .keyIndexFault => 5

/-- `FAULT` (R25): the cause, the address of the faulting instruction, its word (0 when the fetch itself faulted) and
the cause's own information. -/
structure FaultRecord where
  cause : FaultCause
  pc : Word
  word : Word
  info : BitVec 17
deriving DecidableEq, Repr

/-- `FAULT` after RESET (R29, R250). -/
def FaultRecord.clear : FaultRecord := { cause := .none, pc := 0, word := 0, info := 0 }

/-- What the host issues after the commands that are listed (log 4). -/
inductive Later where
  /-- STEP for ever: a host that does nothing but run the program -/
  | steps
  /-- whatever the host chooses, `issued` choices after its first: the free value `Config.hostCommand` -/
  | free (issued : Nat)
deriving DecidableEq, Repr

/-- The commands the host issues, in their order, for ever: first the listed ones, oldest first, then `later`. The
spec puts no constraint on them (R224, R240). -/
structure Schedule where
  pending : List Command
  later : Later
deriving DecidableEq, Repr

/-- The complete state of the block (R10), and two fields of the model's own at its end. -/
structure State where
  /-- `V[0..15]` (R11); `VF` is `V[15]` (R12) -/
  v : Vector Byte 16
  /-- `I` (R14) -/
  i : Word
  /-- `PC` (R15) -/
  pc : Word
  /-- `SP`, 0 to 16 (R19) -/
  sp : Fin 17
  /-- `STACK[0..15]` (R18) -/
  stack : Vector Word 16
  /-- `DT` (R20) -/
  dt : Byte
  /-- `ST` (R20) -/
  st : Byte
  /-- `MEM` (R23) -/
  mem : Memory
  /-- `FB` (R21) -/
  fb : Pixels
  /-- `KEYS` (R22) -/
  keys : Keys
  /-- `TRACE` (R6, R24) -/
  trace : Bool
  /-- `STRICT` (R6, R24) -/
  strict : Bool
  /-- `FAULT` (R25) -/
  fault : FaultRecord
  /-- the model's own: how many random bytes RND has drawn (log 3) -/
  randDraws : Nat
  /-- the model's own: the commands the host issues from now on (log 4) -/
  schedule : Schedule
deriving DecidableEq, Repr

/-- A step of this block never ends in the host's `fault`: each of the five fault causes of R200 is TAKEN, as R208
describes it, in a next state whose `FAULT` record is written (log 1). So there is no constructor. -/
inductive Fault where
deriving DecidableEq, Repr

/-- Reasons for which a step has no meaning in the model. -/
inductive Refusal where
  /-- raised by an arm of `exec` for an instruction that has no meaning yet; safe: nothing can be proved of it -/
  | notModelled (mnemonic : String)
deriving DecidableEq, Repr

/-- The state RESET(trace, strict) leaves (R29, R250). The model's own fields start at no byte drawn (log 3)
and at a host that is free from its first command on (log 4). -/
def State.afterReset (trace strict : Bool) : State where
  v := Vector.replicate 16 0
  i := 0
  pc := BitVec.ofNat 16 Config.programOrigin
  sp := 0
  stack := Vector.replicate 16 0
  dt := 0
  st := 0
  mem := []
  fb := Vector.replicate 32 (Vector.replicate 64 false)
  keys := Vector.replicate 16 false
  trace := trace
  strict := strict
  fault := FaultRecord.clear
  randDraws := 0
  schedule := { pending := [], later := .free 0 }

/-- The machine right after reset: RESET(0, 1). The two flags are the command's arguments and have no reset value of
their own (R24); 0 and 1 are the model's choice (log 2). -/
def State.reset : State := State.afterReset false true

end Sys2Proof.Machine
end

