-- ==== Sys2Proof/Machine/Params.lean ====
section
/-! DEFINITION. The open parameters of R7 at the defaults the spec decides: FONT, SHIFT_SOURCE, FLAG_ORDER, KEY_PICK.
`Rand`, which has no default, is the free value `Config.rand`. -/

namespace Sys2Proof.Machine

open Sys2Proof

/-- `FONT` (R27): the 80 bytes, five per hexadecimal digit, top row first. The spec marks them general knowledge
(G3, D17): log 8. -/
def font : List Byte :=
  [0xF0, 0x90, 0x90, 0x90, 0xF0] ++ [0x20, 0x60, 0x20, 0x20, 0x70] ++
  [0xF0, 0x10, 0xF0, 0x80, 0xF0] ++ [0xF0, 0x10, 0xF0, 0x10, 0xF0] ++
  [0x90, 0x90, 0xF0, 0x10, 0x10] ++ [0xF0, 0x80, 0xF0, 0x10, 0xF0] ++
  [0xF0, 0x80, 0xF0, 0x90, 0xF0] ++ [0xF0, 0x10, 0x20, 0x40, 0x40] ++
  [0xF0, 0x90, 0xF0, 0x90, 0xF0] ++ [0xF0, 0x90, 0xF0, 0x10, 0xF0] ++
  [0xF0, 0x90, 0xF0, 0x90, 0x90] ++ [0xE0, 0x90, 0xE0, 0x90, 0xE0] ++
  [0xF0, 0x80, 0x80, 0x80, 0xF0] ++ [0xE0, 0x90, 0x90, 0x90, 0xE0] ++
  [0xF0, 0x80, 0xF0, 0x80, 0xF0] ++ [0xF0, 0x80, 0xF0, 0x80, 0x80]

/-- `SHIFT_SOURCE` (R7, R136, R140): default `X` (D5). Log 5. -/
def shiftSource : Config.ShiftSource := .x

/-- `FLAG_ORDER` (R7, R121): default `flag_last` (D6). Log 6. -/
def flagOrder : Config.FlagOrder := .flagLast

/-- `KEY_PICK` (R7, R190): the lowest key that is down (D12), none when every key is up. Log 7. -/
def pickKey (keys : Keys) : Option Reg := (List.finRange 16).find? fun k => keys[k]

end Sys2Proof.Machine
end

