-- ==== Sys2Proof/Machine/Ops.lean ====
section
/-! DEFINITION. The named operations over memory, registers, the stack, the framebuffer and the keys, and taking a
fault. Every instruction's meaning is written over these. -/

namespace Sys2Proof.Machine

open Sys2Proof

/-! ## Memory -/

/-- What an address that `Memory` does not list reads as: the contents RESET leaves (R29): the font table at
0x050 to 0x09F, 0 elsewhere. -/
def Memory.unlisted (a : Nat) : Byte :=
  if Config.fontBase ≤ a then font.getD (a - Config.fontBase) 0 else 0

/-- The canonical form: addresses in memory and strictly rising, and no entry equal to what an unlisted address reads
as. -/
abbrev Memory.wf (m : Memory) : Prop :=
  m.Pairwise (fun c d => c.1 < d.1) ∧ ∀ c ∈ m, c.1 < Config.memSize ∧ c.2 ≠ Memory.unlisted c.1

/-- `MEM[a]`: the byte at an address (R9, R47). -/
def Memory.read : Memory → Nat → Byte
  | [], a => Memory.unlisted a
  | (b, u) :: m, a => if a = b then u else Memory.read m a

/-- A cell put before `m`, unless it says what an unlisted address says anyway. -/
def Memory.put (a : Nat) (x : Byte) (m : Memory) : Memory :=
  if x = Memory.unlisted a then m else (a, x) :: m

/-- `MEM[a] <- x` (R9, R47), in canonical form. The address is one the instruction has checked. -/
def Memory.write : Memory → Nat → Byte → Memory
  | [], a, x => Memory.put a x []
  | (b, u) :: m, a, x =>
    if a < b then Memory.put a x ((b, u) :: m)
    else if a = b then Memory.put a x m
    else (b, u) :: Memory.write m a x

/-- Write bytes at ascending addresses from `base` (R42, R156, R158, R256). -/
def Memory.writeBytes : Memory → Nat → List Byte → Memory
  | m, _, [] => m
  | m, base, x :: xs => Memory.writeBytes (Memory.write m base x) (base + 1) xs

/-- The `n` bytes from `base` upwards (R173). -/
def Memory.readBytes (m : Memory) (base n : Nat) : List Byte :=
  (List.range n).map fun k => Memory.read m (base + k)

/-- The instruction word at an address: two bytes, the high byte first (R42). -/
def Memory.readWord (m : Memory) (a : Nat) : Word := wordOfBytes (Memory.read m a) (Memory.read m (a + 1))

/-- The range check of R43, R44 and R45: the `count` addresses from `base`, as integers, are all at most 0xFFF, or
else the lowest of them that is not. A count of 0 needs no address. -/
def firstOutside (base : Word) (count : Nat) : Option (BitVec 17) :=
  if 0 < count ∧ Config.memSize < base.toNat + count then
    some (BitVec.ofNat 17 (max base.toNat Config.memSize))
  else none

/-! ## Registers -/

/-- `V[x]` (R9, R11). -/
def State.reg (s : State) (x : Reg) : Byte := s.v[x]

/-- `V[x] <- b` (R9, R11). No register is hardwired. -/
def State.setReg (s : State) (x : Reg) (b : Byte) : State := { s with v := s.v.set x.val b x.isLt }

/-- The value of `VF` (R12). -/
def State.vf (s : State) : Byte := s.reg Config.flagReg

/-- `V[0]` to `V[x]`, in order (R158). -/
def State.regsUpTo (s : State) (x : Reg) : List Byte := ((List.finRange 16).take (x.val + 1)).map s.reg

/-- `V[k] <- MEM[base + k]` for k = 0 to x; the registers above x are unchanged (R160). -/
def State.loadRegs (s : State) (base : Nat) (x : Reg) : State :=
  { s with v := Vector.ofFn fun k => if k ≤ x then s.mem.read (base + k.val) else s.v[k] }

/-! ## Program counter and stack -/

/-- The unconditional advance of the cycle (R60). -/
def State.advance (s : State) : State := { s with pc := s.pc + Config.instrBytes }

/-- Back to the instruction that is executing: `PC - 2` (R190). -/
def State.rewind (s : State) : State := { s with pc := s.pc - Config.instrBytes }

/-- The address the executing instruction was fetched from, `PC0`: the cycle has already added 2 (R9, R60). -/
def State.pc0 (s : State) : Word := s.pc - Config.instrBytes

/-- `PC <- (PC + 2) mod 65536` when the condition holds (R106, R115). -/
def State.skipIf (cond : Bool) (s : State) : State := if cond then s.advance else s

/-- `PC <- target` (R9). -/
def State.jump (s : State) (target : Word) : State := { s with pc := target }

/-- `STACK[SP] <- PC; SP <- SP + 1` (R104), for `SP < 16`. -/
def State.push (s : State) (h : s.sp.val < 16) : State :=
  { s with stack := s.stack.set s.sp.val s.pc h, sp := ⟨s.sp.val + 1, by omega⟩ }

/-- `SP <- SP - 1; PC <- STACK[SP]` (R100), for `SP > 0`. The entry stays in `STACK` (R18). -/
def State.pop (s : State) (_h : s.sp.val ≠ 0) : State :=
  { s with sp := ⟨s.sp.val - 1, by omega⟩, pc := s.stack[s.sp.val - 1]'(by omega) }

/-! ## Framebuffer -/

/-- `FB[x, y]` (R9, R21). -/
def Pixels.get (f : Pixels) (x : Fin 64) (y : Fin 32) : Bool := f[y][x]

/-- `FB[x, y] <- b` (R9, R21). -/
def Pixels.set (f : Pixels) (x : Fin 64) (y : Fin 32) (b : Bool) : Pixels :=
  Vector.set f y.val (f[y].set x.val b x.isLt) y.isLt

/-- The screen with every pixel 0 (R170). -/
def Pixels.clear : Pixels := Vector.replicate 32 (Vector.replicate 64 false)

/-- A framebuffer and whether a pixel went from 1 to 0 so far: what DRW's loop carries (R173). -/
abbrev Canvas := Pixels × Bool

/-- One sprite bit that is 1, at a pixel: note a collision, then toggle (R173). -/
def Canvas.toggle (c : Canvas) (x : Fin 64) (y : Fin 32) : Canvas :=
  (Pixels.set c.1 x y (!Pixels.get c.1 x y), c.2 || Pixels.get c.1 x y)

/-- Bit `bit` of a sprite row, counted from the left, at column `(ox + bit) mod 64` and row `y mod 32`; a 0 bit
touches nothing (R173). -/
def Canvas.drawBit (ox y : Nat) (b : Byte) (c : Canvas) (bit : Nat) : Canvas :=
  if b.getLsbD (7 - bit) then Canvas.toggle c (Fin.ofNat 64 (ox + bit)) (Fin.ofNat 32 y) else c

/-- One sprite row: its 8 bits, most significant first (R173). -/
def Canvas.drawRow (ox y : Nat) (b : Byte) (c : Canvas) : Canvas :=
  (List.range 8).foldl (Canvas.drawBit ox y b) c

/-- The sprite rows from `y` downward (R173). -/
def Canvas.drawRows (ox : Nat) : Nat → List Byte → Canvas → Canvas
  | _, [], c => c
  | y, b :: bs, c => Canvas.drawRows ox (y + 1) bs (Canvas.drawRow ox y b c)

/-! ## Faults -/

/-- TAKING A FAULT (R208): the `FAULT` record is written and nothing else; control goes nowhere. There is no return
from a fault and no command that clears `FAULT` alone (R210): RESET, which writes the whole state, is the only way
out (`State.afterReset`). -/
def State.raise (s : State) (cause : FaultCause) (pc word : Word) (info : BitVec 17) : State :=
  { s with fault := { cause := cause, pc := pc, word := word, info := info } }

/-- A fault of an executing instruction (R208, R209): `FAULT.pc` is the address it was fetched from and `FAULT.word` its word,
which the encoder gives back since every bit of a word is compared or is an operand (R65); `PC` keeps the advance of
the cycle. Log 15. -/
def raiseIn (i : Instr) (cause : FaultCause) (info : BitVec 17) (s : State) : Host.Outcome State Fault Refusal :=
  .next (s.raise cause s.pc0 (encode i) info)

/-- Check the whole range an instruction needs (R45), then go on to `t`, or fault with nothing written. -/
def withRange (i : Instr) (count : Nat) (s t : State) : Host.Outcome State Fault Refusal :=
  match firstOutside s.i count with
  | some a => raiseIn i .addressFault a s
  | none => .next t

/-- The block is halted (R208, R241). -/
def State.halted (s : State) : Bool := s.fault.cause ≠ .none

end Sys2Proof.Machine
end

