-- ==== Sys2Proof/Machine/Operands.lean ====
section
/-! DEFINITION. The operand forms (R64): immediates, the register values used as a digit, a key number or a coordinate, the
operand of the shifts, and the effective address. -/

namespace Sys2Proof.Machine

open Sys2Proof

/-- `zext_16(NNN)`: the 12-bit immediate as an address (R64, R102, R150). -/
def zext16 (nnn : Addr12) : Word := nnn.setWidth 16

/-- `V[X][3:0]`: the digit of LD F (R64, R154). -/
def digitOf (b : Byte) : Nat := b.toNat % 16

/-- The key a register value names, when it is one of the 16 slots (R64, R186). -/
def keyOf (b : Byte) : Option Reg := if h : b.toNat < 16 then some ⟨b.toNat, h⟩ else none

/-- The row count of DRW (R64). -/
def rowsOf (n : Nibble) : Nat := n.toNat

/-- The number of registers LD [I],Vx and LD Vx,[I] move (R64, R158). -/
def regCount (x : Reg) : Nat := x.val + 1

/-- The value SHR and SHL shift, for either value of `SHIFT_SOURCE` (R136, R140). -/
def shiftOperand (src : Config.ShiftSource) (s : State) (x y : Reg) : Byte :=
  match src with
  | .x => s.reg x
  | .y => s.reg y

/-- The effective address of element 0: `I` as an integer (R44, R149). -/
def State.ea (s : State) : Nat := s.i.toNat

end Sys2Proof.Machine
end

