-- ==== Sys2Proof/Machine/Flags.lean ====
section
/-! DEFINITION. The values `VF` receives (R13, R120) and the two writes of a flag-writing ALU instruction (R121). -/

namespace Sys2Proof.Machine

open Sys2Proof

/-- A flag is 0 or 1 as an 8-bit value (R13). -/
def flagByte (b : Bool) : Byte := if b then 1 else 0

/-- Carry out: `a + b > 255` (R120, R132). -/
def carryOut (a b : Byte) : Bool := 255 < a.toNat + b.toNat

/-- No borrow: `a >= b` (R120, R134, R138). -/
def noBorrow (a b : Byte) : Bool := b.toNat ≤ a.toNat

/-- The bit SHR shifts out: `s[0]` (R136). -/
def shrOut (a : Byte) : Bool := a.getLsbD 0

/-- The bit SHL shifts out: `s[7]` (R140). -/
def shlOut (a : Byte) : Bool := a.getLsbD 7

/-- The result and the flag, in the order `FLAG_ORDER` says (R121). -/
def State.setResultAndFlag (order : Config.FlagOrder) (x : Reg) (result : Byte) (flag : Bool) (s : State) : State :=
  match order with
  | .flagLast => (s.setReg x result).setReg Config.flagReg (flagByte flag)
  | .resultLast => (s.setReg Config.flagReg (flagByte flag)).setReg x result

end Sys2Proof.Machine
end

