-- ==== Sys2Proof/Machine/Alu.lean ====
section
/-! DEFINITION. Register load and ALU (spec file 41): LD, ADD, OR, AND, XOR, SUB, SHR, SUBN, SHL. -/

namespace Sys2Proof.Machine

open Sys2Proof

/-- LD Vx, byte (R122). -/
def execLdByte (x : Reg) (nn : Byte) (s : State) : Host.Outcome State Fault Refusal :=
  .next (s.setReg x nn)

/-- ADD Vx, byte: no flag (R124). -/
def execAddByte (x : Reg) (nn : Byte) (s : State) : Host.Outcome State Fault Refusal :=
  .next (s.setReg x (s.reg x + nn))

/-- LD Vx, Vy (R126). -/
def execLdReg (x y : Reg) (s : State) : Host.Outcome State Fault Refusal :=
  .next (s.setReg x (s.reg y))

/-- OR Vx, Vy: no flag (R128). -/
def execOrReg (x y : Reg) (s : State) : Host.Outcome State Fault Refusal :=
  .next (s.setReg x (s.reg x ||| s.reg y))

/-- AND Vx, Vy: no flag (R129). -/
def execAndReg (x y : Reg) (s : State) : Host.Outcome State Fault Refusal :=
  .next (s.setReg x (s.reg x &&& s.reg y))

/-- XOR Vx, Vy: no flag (R130). -/
def execXorReg (x y : Reg) (s : State) : Host.Outcome State Fault Refusal :=
  .next (s.setReg x (s.reg x ^^^ s.reg y))

/-- ADD Vx, Vy: `VF` = carry out (R132). -/
def execAddReg (x y : Reg) (s : State) : Host.Outcome State Fault Refusal :=
  .next (s.setResultAndFlag flagOrder x (s.reg x + s.reg y) (carryOut (s.reg x) (s.reg y)))

/-- SUB Vx, Vy: `VF` = no borrow (R134). -/
def execSubReg (x y : Reg) (s : State) : Host.Outcome State Fault Refusal :=
  .next (s.setResultAndFlag flagOrder x (s.reg x - s.reg y) (noBorrow (s.reg x) (s.reg y)))

/-- SHR Vx {, Vy}: `VF` = the bit shifted out (R136). -/
def execShrReg (x y : Reg) (s : State) : Host.Outcome State Fault Refusal :=
  let a := shiftOperand shiftSource s x y
  .next (s.setResultAndFlag flagOrder x (a >>> 1) (shrOut a))

/-- SUBN Vx, Vy: `V[Y] - V[X]`, `VF` = no borrow (R138). -/
def execSubnReg (x y : Reg) (s : State) : Host.Outcome State Fault Refusal :=
  .next (s.setResultAndFlag flagOrder x (s.reg y - s.reg x) (noBorrow (s.reg y) (s.reg x)))

/-- SHL Vx {, Vy}: `VF` = the bit shifted out (R140). -/
def execShlReg (x y : Reg) (s : State) : Host.Outcome State Fault Refusal :=
  let a := shiftOperand shiftSource s x y
  .next (s.setResultAndFlag flagOrder x (a <<< 1) (shlOut a))

end Sys2Proof.Machine
end

