-- ==== Sys2Proof/Machine/ControlFlow.lean ====
section
/-! DEFINITION. Control flow (spec file 40): RET, JP, CALL, SE, SNE. A meaning starts from the state in which the
cycle has already advanced `PC` by 2 (R60). -/

namespace Sys2Proof.Machine

open Sys2Proof

/-- RET (R100, R203). -/
def execRet (s : State) : Host.Outcome State Fault Refusal :=
  if h : s.sp.val = 0 then raiseIn .ret .stackUnderflow 0 s else .next (s.pop h)

/-- JP addr (R102). -/
def execJp (nnn : Addr12) (s : State) : Host.Outcome State Fault Refusal :=
  .next (s.jump (zext16 nnn))

/-- CALL addr (R104, R202). -/
def execCall (nnn : Addr12) (s : State) : Host.Outcome State Fault Refusal :=
  if h : s.sp.val < Config.stackDepth then .next ((s.push h).jump (zext16 nnn))
  else raiseIn (.call nnn) .stackOverflow 0 s

/-- SE Vx, byte (R106). -/
def execSeByte (x : Reg) (nn : Byte) (s : State) : Host.Outcome State Fault Refusal :=
  .next (s.skipIf (s.reg x == nn))

/-- SNE Vx, byte (R108). -/
def execSneByte (x : Reg) (nn : Byte) (s : State) : Host.Outcome State Fault Refusal :=
  .next (s.skipIf (s.reg x != nn))

/-- SE Vx, Vy (R110). -/
def execSeReg (x y : Reg) (s : State) : Host.Outcome State Fault Refusal :=
  .next (s.skipIf (s.reg x == s.reg y))

/-- SNE Vx, Vy (R112). -/
def execSneReg (x y : Reg) (s : State) : Host.Outcome State Fault Refusal :=
  .next (s.skipIf (s.reg x != s.reg y))

end Sys2Proof.Machine
end

