-- ==== Sys2Proof/Machine/Display.lean ====
section
/-! DEFINITION. Display (spec file 43): CLS and DRW. -/

namespace Sys2Proof.Machine

open Sys2Proof

/-- CLS (R170). -/
def execCls (s : State) : Host.Outcome State Fault Refusal :=
  .next { s with fb := Pixels.clear }

/-- What DRW draws: the `n` sprite bytes at `I` with the origin in `V[X]`, `V[Y]`, on the framebuffer as it is, with
no collision yet. The origins are read before `VF` is cleared (R173, D7, log 11). -/
def drawn (x y : Reg) (n : Nibble) (s : State) : Canvas :=
  Canvas.drawRows (s.reg x).toNat (s.reg y).toNat (s.mem.readBytes s.ea (rowsOf n)) (s.fb, false)

/-- DRW Vx, Vy, nibble (R173, R45). -/
def execDrw (x y : Reg) (n : Nibble) (s : State) : Host.Outcome State Fault Refusal :=
  withRange (.drw x y n) (rowsOf n) s
    ({ s with fb := (drawn x y n s).1 }.setReg Config.flagReg (flagByte (drawn x y n s).2))

end Sys2Proof.Machine
end

