-- ==== Sys2Proof/Machine/IndexMemory.lean ====
section
/-! DEFINITION. Index register and memory (spec file 42): LD I, ADD I, LD F, LD B, LD [I], LD Vx,[I]. No transfer
changes `I` (R149). -/

namespace Sys2Proof.Machine

open Sys2Proof

/-- LD I, addr (R150). -/
def execLdI (nnn : Addr12) (s : State) : Host.Outcome State Fault Refusal :=
  .next { s with i := zext16 nnn }

/-- ADD I, Vx: 16-bit wrap, no flag (R152). -/
def execAddI (x : Reg) (s : State) : Host.Outcome State Fault Refusal :=
  .next { s with i := s.i + (s.reg x).setWidth 16 }

/-- The address of a digit's glyph: `FONT_BASE + FONT_GLYPH_BYTES * d` (R154). -/
def glyphAddress (d : Nat) : Word := BitVec.ofNat 16 (Config.fontBase + Config.fontGlyphBytes * d)

/-- LD F, Vx (R154). -/
def execLdF (x : Reg) (s : State) : Host.Outcome State Fault Refusal :=
  .next { s with i := glyphAddress (digitOf (s.reg x)) }

/-- The three decimal digits of a byte: hundreds, tens, ones (R156). -/
def decimalDigits (b : Byte) : List Byte :=
  [BitVec.ofNat 8 (b.toNat / 100), BitVec.ofNat 8 (b.toNat / 10 % 10), BitVec.ofNat 8 (b.toNat % 10)]

/-- LD B, Vx (R156, R45). -/
def execLdB (x : Reg) (s : State) : Host.Outcome State Fault Refusal :=
  withRange (.ldB x) 3 s { s with mem := s.mem.writeBytes s.ea (decimalDigits (s.reg x)) }

/-- LD [I], Vx (R158, R45). -/
def execLdMemVx (x : Reg) (s : State) : Host.Outcome State Fault Refusal :=
  withRange (.ldMemVx x) (regCount x) s { s with mem := s.mem.writeBytes s.ea (s.regsUpTo x) }

/-- LD Vx, [I] (R160, R45). -/
def execLdVxMem (x : Reg) (s : State) : Host.Outcome State Fault Refusal :=
  withRange (.ldVxMem x) (regCount x) s (s.loadRegs s.ea x)

end Sys2Proof.Machine
end

