-- ==== Sys2Proof/Machine/KeysTimers.lean ====
section
/-! DEFINITION. Random, keypad and timers (spec file 44): RND, SKP, SKNP, LD Vx,DT, LD Vx,K, LD DT,Vx, LD ST,Vx. -/

namespace Sys2Proof.Machine

open Sys2Proof

/-- `Rand()`: the free random byte of this execution (R7, R185, log 3). -/
def State.randByte (s : State) : Byte := Config.rand s.randDraws

/-- The random source after a draw. -/
def State.drawRand (s : State) : State := { s with randDraws := s.randDraws + 1 }

/-- RND Vx, byte (R185). -/
def execRnd (x : Reg) (nn : Byte) (s : State) : Host.Outcome State Fault Refusal :=
  .next (s.drawRand.setReg x (s.randByte &&& nn))

/-- The shared form of the key skips: skip when key `V[X]` is in the wanted state, fault when there is no such key
(R186, R187, R205). -/
def skipOnKey (i : Instr) (wanted : Bool) (b : Byte) (s : State) : Host.Outcome State Fault Refusal :=
  match keyOf b with
  | some k => .next (s.skipIf (s.keys[k] == wanted))
  | none => raiseIn i .keyIndexFault (b.setWidth 17) s

/-- SKP Vx (R186). -/
def execSkp (x : Reg) (s : State) : Host.Outcome State Fault Refusal :=
  skipOnKey (.skp x) true (s.reg x) s

/-- SKNP Vx (R187). -/
def execSknp (x : Reg) (s : State) : Host.Outcome State Fault Refusal :=
  skipOnKey (.sknp x) false (s.reg x) s

/-- LD Vx, DT (R188). -/
def execLdVxDt (x : Reg) (s : State) : Host.Outcome State Fault Refusal :=
  .next (s.setReg x s.dt)

/-- LD Vx, K: the number of a key that is down, or the spin (R190). -/
def execLdVxK (x : Reg) (s : State) : Host.Outcome State Fault Refusal :=
  match pickKey s.keys with
  | some k => .next (s.setReg x (BitVec.ofNat 8 k.val))
  | none => .next s.rewind

/-- LD DT, Vx (R192). -/
def execLdDtVx (x : Reg) (s : State) : Host.Outcome State Fault Refusal :=
  .next { s with dt := s.reg x }

/-- LD ST, Vx (R194). -/
def execLdStVx (x : Reg) (s : State) : Host.Outcome State Fault Refusal :=
  .next { s with st := s.reg x }

end Sys2Proof.Machine
end

