-- ==== Sys2Proof/Machine/Cycle.lean ====
section
/-! DEFINITION. The instruction cycle, the STEP command (R60): fetch, advance, decode, execute; and the events a STEP
emits (R235, R236). -/

namespace Sys2Proof.Machine

open Sys2Proof

/-- What the fetch gives: a word, or the lowest address it needed outside memory (R42, R43). -/
inductive Fetched where
  | word (w : Word)
  | outside (a : BitVec 17)
deriving DecidableEq, Repr

/-- Fetch at `PC`: the addresses `PC` and `PC + 1`, at any parity (R43, R46). -/
def fetch (s : State) : Fetched :=
  match firstOutside s.pc 2 with
  | some a => .outside a
  | none => .word (s.mem.readWord s.pc.toNat)

/-- A fetch fault: `PC` is not advanced, `FAULT.pc` = `PC`, `FAULT.word` = 0 (R43, R204, R209). -/
def fetchFault (a : BitVec 17) (s : State) : Host.Outcome State Fault Refusal :=
  .next (s.raise .addressFault s.pc 0 a)

/-- An unrecognised word, after the advance (R75, R201): a fault when `STRICT` = 1, else no further effect. -/
def unknownWord (w : Word) (s : State) : Host.Outcome State Fault Refusal :=
  if s.strict then .next (s.raise .unknownInstruction s.pc0 w 0) else .next s

/-- Decode and execute a fetched word, after the advance (R60). -/
def execWord (w : Word) (s : State) : Host.Outcome State Fault Refusal :=
  match decode w with
  | .instr i => exec i s
  | .rejected _ => unknownWord w s

/-- The STEP command (R60). On a halted block it changes nothing (R241). -/
def stepCommand (s : State) : Host.Outcome State Fault Refusal :=
  if s.halted then .next s
  else
    match fetch s with
    | .outside a => fetchFault a s
    | .word w => execWord w s.advance

/-- What the block gives the host beside its state: the two events of a STEP (R235, R236), the `beep` of a TICK
(R222) and the status of a LOAD (R256). -/
inductive LoadStatus where
  | ok
  | loadOverrun
  | halted
deriving DecidableEq, Repr

/-- An output of a command (R240). -/
inductive Output where
  /-- `trace(PC0, w, V[0], V[1], V[2], V[3])` (R235) -/
  | trace (pc0 w : Word) (v0 v1 v2 v3 : Byte)
  /-- `unknown(PC0, w)` (R236) -/
  | unknown (pc0 w : Word)
  /-- the output of TICK (R222) -/
  | beep (on : Bool)
  /-- the output of LOAD (R256) -/
  | loadStatus (status : LoadStatus)
deriving DecidableEq, Repr

/-- The trace event of a fetched word, with the registers before execution, when `TRACE` = 1 (R235). -/
def traceEvents (w : Word) (s : State) : List Output :=
  if s.trace then [.trace s.pc w (s.reg 0) (s.reg 1) (s.reg 2) (s.reg 3)] else []

/-- The event of an unrecognised word, whatever `TRACE` and `STRICT` are (R236). -/
def unknownEvents (w : Word) (s : State) : List Output :=
  match decode w with
  | .instr _ => []
  | .rejected _ => [.unknown s.pc w]

/-- The events a STEP from this state emits, in order (R60, R75). A halted block and a faulting fetch emit none (R235,
R241). -/
def stepOutputs (s : State) : List Output :=
  if s.halted then []
  else
    match fetch s with
    | .outside _ => []
    | .word w => traceEvents w s ++ unknownEvents w s

end Sys2Proof.Machine
end

