-- ==== Sys2Proof/Machine/Commands.lean ====
section
/-! DEFINITION. The host's commands other than STEP (R240): RESET, LOAD, SETKEYS, TICK, and the read-only views
(R231, R25). -/

namespace Sys2Proof.Machine

open Sys2Proof

/-- RESET(trace, strict) (R250, R251): everything of the block is discarded. The host's own schedule and random source
are not of the block and stay (log 14). -/
def resetCommand (trace strict : Bool) (s : State) : State :=
  { State.afterReset trace strict with randDraws := s.randDraws, schedule := s.schedule }

/-- The status of LOAD (R256, R241). -/
def loadStatus (bytes : List Byte) (s : State) : LoadStatus :=
  if s.halted then .halted
  else if Config.maxImage < bytes.length then .loadOverrun
  else .ok

/-- LOAD(bytes) (R256, R257): on any status but `Ok` nothing is written. -/
def loadCommand (bytes : List Byte) (s : State) : State :=
  match loadStatus bytes s with
  | .ok => { s with mem := s.mem.writeBytes Config.programOrigin bytes }
  | .loadOverrun => s
  | .halted => s

/-- SETKEYS(k) (R228): all sixteen at once. -/
def setKeysCommand (keys : Keys) (s : State) : State :=
  if s.halted then s else { s with keys := keys }

/-- One count of a timer toward zero (R221). -/
def countDown (t : Byte) : Byte := if t = 0 then 0 else t - 1

/-- TICK (R221): each timer on its own. -/
def tickCommand (s : State) : State :=
  if s.halted then s else { s with dt := countDown s.dt, st := countDown s.st }

/-- The output of TICK (R221, R222, R241). -/
def tickBeep (s : State) : Bool := !s.halted && s.st != 0

/-- One command (R240). -/
def runCommand (c : Command) (s : State) : Host.Outcome State Fault Refusal :=
  match c with
  | .reset trace strict => .next (resetCommand trace strict s)
  | .load bytes => .next (loadCommand bytes s)
  | .setKeys keys => .next (setKeysCommand keys s)
  | .step => stepCommand s
  | .tick => .next (tickCommand s)

/-- The outputs of one command (R240). -/
def commandOutputs (c : Command) (s : State) : List Output :=
  match c with
  | .reset _ _ => []
  | .load bytes => [.loadStatus (loadStatus bytes s)]
  | .setKeys _ => []
  | .step => stepOutputs s
  | .tick => [.beep (tickBeep s)]

/-! ## The host's schedule (R224, R240, log 4) -/

/-- The first command of a schedule. -/
def Schedule.next (h : Schedule) : Command :=
  match h.pending, h.later with
  | c :: _, _ => c
  | [], .steps => .step
  | [], .free n => Config.hostCommand n

/-- What is left of a schedule after its first command. -/
def Schedule.rest (h : Schedule) : Schedule :=
  match h.pending, h.later with
  | _ :: cs, l => { pending := cs, later := l }
  | [], .steps => h
  | [], .free n => { pending := [], later := .free (n + 1) }

/-- The first `n` commands of a schedule. -/
def Schedule.take : Nat → Schedule → List Command
  | 0, _ => []
  | n + 1, h => h.next :: Schedule.take n h.rest

/-- What is left of a schedule after `n` commands. -/
def Schedule.drop : Nat → Schedule → Schedule
  | 0, h => h
  | n + 1, h => Schedule.drop n h.rest

/-- The schedule of a host that issues STEP and nothing else. -/
def Schedule.stepsOnly : Schedule := { pending := [], later := .steps }

/-- The command the host issues next. -/
def State.nextCommand (s : State) : Command := s.schedule.next

/-- The state once the host has issued that command: only the host's schedule moves on. -/
def State.issue (s : State) : State := { s with schedule := s.schedule.rest }

/-- One turn: the host issues its next command and the block runs it. -/
def hostTurn (s : State) : Host.Outcome State Fault Refusal :=
  runCommand s.nextCommand s.issue

/-- The outputs of the next turn. -/
def outputs (s : State) : List Output :=
  commandOutputs s.nextCommand s

/-- One iteration of the host's run loop (R262): set the keys, step, tick or not. -/
def Command.iteration (keys : Keys) (ticks : Bool) : List Command :=
  [.setKeys keys, .step] ++ (if ticks then [.tick] else [])

/-- The framebuffer output port (R231): any pixel, between commands, with no effect. -/
def framebufferPort (s : State) (x : Fin 64) (y : Fin 32) : Bool := Pixels.get s.fb x y

/-- The port by the row-major linear index `y*64 + x` (R21, R231). -/
def framebufferAt (s : State) (n : Fin 2048) : Bool :=
  framebufferPort s ⟨n.val % 64, by omega⟩ ⟨n.val / 64, by omega⟩

/-- The host's view of `FAULT` (R25, R208). -/
def faultView (s : State) : FaultRecord := s.fault

/-- Where the fetch of the next STEP can take place: `PC`, or the program origin if `PC` is not fetchable. -/
def State.fetchPlace (s : State) : Word :=
  match firstOutside s.pc 2 with
  | none => s.pc
  | some _ => BitVec.ofNat 16 Config.programOrigin

/-- A state whose next turn is a STEP that fetches the given word (log 16): the two bytes stand at the fetch place,
`PC` is there, the host issues STEP only and the block is not halted. -/
def State.placeWord (s : State) (w : Word) : State :=
  { s with
    mem := s.mem.writeBytes s.fetchPlace.toNat [hiByte w, loByte w]
    pc := s.fetchPlace
    fault := if s.halted then FaultRecord.clear else s.fault
    schedule := Schedule.stepsOnly }

end Sys2Proof.Machine
end

