-- ==== Sys2Proof/Machine/Step.lean ====
section
/-! DEFINITION. One step of the machine, and the placing of a word where the next step fetches. -/

namespace Sys2Proof.Machine

open Sys2Proof

/-- One step: the next command of the host's schedule, whichever it is (R240, log 4). -/
def step (s : State) : Host.Outcome State Fault Refusal := hostTurn s

/-- The state with an instruction stored where `step` fetches its next instruction (log 16). A table word of more
than 16 bits does not occur (R61); its low 16 bits are placed. -/
def State.withFetchWord (s : State) (nbits w : Nat) : State :=
  s.placeWord (BitVec.ofNat 16 (w % 2 ^ nbits))

end Sys2Proof.Machine
end

