-- ==== Sys2Proof/Safety.lean ====
section
/-! DEFINITION. What counts as a safe state, the invariant of every step, and the terms in which claims speak of what an
instruction changes (frames) and when it faults. -/

namespace Sys2Proof.Machine

open Sys2Proof

/-- A safe state: no fault has been taken since RESET. A state whose `FAULT.cause` is not 0 is never a final state of
a program (R208, D14). -/
def State.safe (s : State) : Prop := s.fault.cause = .none

/-! ## Frames -/

/-- The parts of the state beside the general registers. -/
inductive Part where
  | index | pc | stackPointer | stack | delay | sound | memory | pixels | keys | config | fault | random | schedule
deriving DecidableEq, Repr

/-- The part is the same in both states; memory is compared by reading every byte. -/
def Part.same : Part → State → State → Prop
  | .index, s, t => t.i = s.i
  | .pc, s, t => t.pc = s.pc
  | .stackPointer, s, t => t.sp = s.sp
  | .stack, s, t => t.stack = s.stack
  | .delay, s, t => t.dt = s.dt
  | .sound, s, t => t.st = s.st
  | .memory, s, t => ∀ a, t.mem.read a = s.mem.read a
  | .pixels, s, t => t.fb = s.fb
  | .keys, s, t => t.keys = s.keys
  | .config, s, t => t.trace = s.trace ∧ t.strict = s.strict
  | .fault, s, t => t.fault = s.fault
  | .random, s, t => t.randDraws = s.randDraws
  | .schedule, s, t => t.schedule = s.schedule

/-- From `s` to `t` nothing changes but the listed registers and the listed parts. -/
def OnlyChanges (regs : List Reg) (parts : List Part) (s t : State) : Prop :=
  (∀ k, k ∉ regs → t.reg k = s.reg k) ∧ ∀ p, p ∉ parts → p.same s t

/-- Every byte of memory outside `base .. base + n - 1` reads the same in both states. -/
def MemorySameOutside (base n : Nat) (s t : State) : Prop :=
  ∀ a, ¬ (base ≤ a ∧ a < base + n) → t.mem.read a = s.mem.read a

/-- The general registers an instruction may write: its destinations, and `VF` where it is a flag (R13, R160). -/
def destRegs : Instr → List Reg
  | .cls => []
  | .ret => []
  | .jp _ => []
  | .call _ => []
  | .seByte _ _ => []
  | .sneByte _ _ => []
  | .seReg _ _ => []
  | .ldByte x _ => [x]
  | .addByte x _ => [x]
  | .ldReg x _ => [x]
  | .orReg x _ => [x]
  | .andReg x _ => [x]
  | .xorReg x _ => [x]
  | .addReg x _ => [x, Config.flagReg]
  | .subReg x _ => [x, Config.flagReg]
  | .shrReg x _ => [x, Config.flagReg]
  | .subnReg x _ => [x, Config.flagReg]
  | .shlReg x _ => [x, Config.flagReg]
  | .sneReg _ _ => []
  | .ldI _ => []
  | .rnd x _ => [x]
  | .drw _ _ _ => [Config.flagReg]
  | .skp _ => []
  | .sknp _ => []
  | .ldVxDt x => [x]
  | .ldVxK x => [x]
  | .ldDtVx _ => []
  | .ldStVx _ => []
  | .addI _ => []
  | .ldF _ => []
  | .ldB _ => []
  | .ldMemVx _ => []
  | .ldVxMem x => (List.finRange 16).filter (· ≤ x)

/-- The other parts an instruction may write (R10 column "written by", R16, R48, R200), beside the cycle's advance of
`PC`. -/
def writesParts : Instr → List Part
  | .cls => [.pixels]
  | .ret => [.pc, .stackPointer, .fault]
  | .jp _ => [.pc]
  | .call _ => [.pc, .stackPointer, .stack, .fault]
  | .seByte _ _ => [.pc]
  | .sneByte _ _ => [.pc]
  | .seReg _ _ => [.pc]
  | .ldByte _ _ => []
  | .addByte _ _ => []
  | .ldReg _ _ => []
  | .orReg _ _ => []
  | .andReg _ _ => []
  | .xorReg _ _ => []
  | .addReg _ _ => []
  | .subReg _ _ => []
  | .shrReg _ _ => []
  | .subnReg _ _ => []
  | .shlReg _ _ => []
  | .sneReg _ _ => [.pc]
  | .ldI _ => [.index]
  | .rnd _ _ => [.random]
  | .drw _ _ _ => [.pixels, .fault]
  | .skp _ => [.pc, .fault]
  | .sknp _ => [.pc, .fault]
  | .ldVxDt _ => []
  | .ldVxK _ => [.pc]
  | .ldDtVx _ => [.delay]
  | .ldStVx _ => [.sound]
  | .addI _ => [.index]
  | .ldF _ => [.index]
  | .ldB _ => [.memory, .fault]
  | .ldMemVx _ => [.memory, .fault]
  | .ldVxMem _ => [.fault]

/-! ## When an instruction faults -/

/-- How many bytes an instruction accesses at `I` (R48). -/
def accessCount : Instr → Nat
  | .drw _ _ n => n.toNat
  | .ldB _ => 3
  | .ldMemVx x => x.val + 1
  | .ldVxMem x => x.val + 1
  | _ => 0

/-- The fault an instruction raises in a state, with its information: the table of R200. -/
def faultOf (i : Instr) (s : State) : Option (FaultCause × Nat) :=
  match i with
  | .call _ => if s.sp.val = 16 then some (.stackOverflow, 0) else none
  | .ret => if s.sp.val = 0 then some (.stackUnderflow, 0) else none
  | .skp x => if 15 < (s.reg x).toNat then some (.keyIndexFault, (s.reg x).toNat) else none
  | .sknp x => if 15 < (s.reg x).toNat then some (.keyIndexFault, (s.reg x).toNat) else none
  | _ =>
    if 0 < accessCount i ∧ 0xFFF < s.i.toNat + accessCount i - 1 then
      some (.addressFault, max s.i.toNat 0x1000)
    else none

/-! ## The sprite, in closed form -/

/-- Whether the `n`-row sprite at `base`, drawn at origin (`ox`, `oy`), has a 1 bit on pixel (`x`, `y`): some row and
some bit counted from the left land there and that bit is 1 (R173). -/
def spriteCovers (m : Memory) (base n ox oy : Nat) (x : Fin 64) (y : Fin 32) : Prop :=
  ∃ row < n, ∃ bit < 8, x.val = (ox + bit) % 64 ∧ y.val = (oy + row) % 32 ∧
    (m.read (base + row)).getLsbD (7 - bit) = true

/-! ## The cycle -/

/-- The next turn is a STEP that fetches a word: the host issues STEP, the block is not halted, and `PC` and
`PC + 1` are in memory (R43, R60). -/
def State.ready (s : State) : Prop :=
  s.nextCommand = .step ∧ s.fault.cause = .none ∧ s.pc.toNat + 1 ≤ 0xFFF

/-- The word the next STEP fetches: `MEM[PC] ++ MEM[PC+1]` (R42). -/
def State.nextWord (s : State) : Word := s.mem.read s.pc.toNat ++ s.mem.read (s.pc.toNat + 1)

/-! ## The invariant -/

/-- What `FAULT` can hold (R25, R200): all clear when there is no fault, else the information its cause has. -/
abbrev FaultRecord.legal (f : FaultRecord) : Prop :=
  match f.cause with
  | .none => f = FaultRecord.clear
  | .unknownInstruction => f.info = 0
  | .stackOverflow => f.info = 0
  | .stackUnderflow => f.info = 0
  | .addressFault => 0xFFF < f.info.toNat
  | .keyIndexFault => 15 < f.info.toNat ∧ f.info.toNat ≤ 255

/-- The invariant of every step: memory is in canonical form (R40), every stack entry is a program counter CALL could
push (D29: at most 0x1000), `PC` is at most 0x1002 (R16), and `FAULT` is legal (R25, R200). -/
abbrev State.Inv (s : State) : Prop :=
  Memory.wf s.mem ∧ (∀ k : Fin 16, (s.stack[k]).toNat ≤ 0x1000) ∧ s.pc.toNat ≤ 0x1002 ∧ s.fault.legal

end Sys2Proof.Machine
end

