-- ==== Sys2Proof/Certificates/Slice0/Obligations.lean ====
section
/-! DEFINITION. The statements for the provers. At the level of `exec` the state is the one after the cycle's advance:
its `pc` is the `PC` of the pseudocode, the address of the instruction plus 2 (R60). -/

open Sys2Proof Sys2Proof.Machine

/-! ## Encoding -/

/-- The words of 95_test_vectors.md section 2.7 decode to the instructions it names. The opcode numbers are the
spec's general knowledge (log 9). -/
def Obligations.SpecWordsDecode : Prop :=
  decode 0x00E0 = .instr .cls ∧ decode 0x00EE = .instr .ret ∧ decode 0x1234 = .instr (.jp 0x234) ∧
  decode 0x2FFF = .instr (.call 0xFFF) ∧ decode 0x3A10 = .instr (.seByte 10 0x10) ∧
  decode 0x4B20 = .instr (.sneByte 11 0x20) ∧ decode 0x5AB0 = .instr (.seReg 10 11) ∧
  decode 0x6C33 = .instr (.ldByte 12 0x33) ∧ decode 0x7D44 = .instr (.addByte 13 0x44) ∧
  decode 0x8EF5 = .instr (.subReg 14 15) ∧ decode 0x8EFE = .instr (.shlReg 14 15) ∧
  decode 0x9AB0 = .instr (.sneReg 10 11) ∧ decode 0xA555 = .instr (.ldI 0x555) ∧
  decode 0xC7F0 = .instr (.rnd 7 0xF0) ∧ decode 0xD5A7 = .instr (.drw 5 10 7) ∧
  decode 0xE3A1 = .instr (.sknp 3) ∧ decode 0xF20A = .instr (.ldVxK 2) ∧ decode 0xF265 = .instr (.ldVxMem 2)

/-- Decoding the word of an instruction gives the instruction back, with every operand at every value. -/
def Obligations.DecodeOfEncode : Prop := ∀ i : Instr, decode (encode i) = .instr i

/-- A word that decodes is the word of the instruction it decodes to: every bit is compared or is an operand. -/
def Obligations.EncodeOfDecode : Prop := ∀ (w : Word) (i : Instr), decode w = .instr i → encode i = w

/-- The nested dispatch is the opcode map: the row of a decoded instruction matches its word, and a word that matches
a row decodes to an instruction of that row (so a word matches at most one row). -/
def Obligations.DecodeIsTheOpcodeMap : Prop :=
  (∀ (w : Word) (i : Instr), decode w = .instr i →
    ∃ r, opcodeTable[i.rowIndex]? = some r ∧ w &&& r.mask = r.pattern) ∧
  (∀ (w : Word) (n : Nat) (r : OpcodeRow), opcodeTable[n]? = some r → w &&& r.mask = r.pattern →
    ∃ i, decode w = .instr i ∧ i.rowIndex = n)

/-- The words that are not recognised are those of the table of R76, family by family. -/
def Obligations.UnrecognisedWordsAreThoseListed : Prop :=
  ∀ w : Word, (∃ why, decode w = .rejected why) ↔
    (w.toNat / 4096 = 0 ∧ w.toNat ≠ 0x00E0 ∧ w.toNat ≠ 0x00EE) ∨
    (w.toNat / 4096 = 5 ∧ w.toNat % 16 ≠ 0) ∨
    (w.toNat / 4096 = 8 ∧ w.toNat % 16 ∈ [0x8, 0x9, 0xA, 0xB, 0xC, 0xD, 0xF]) ∨
    (w.toNat / 4096 = 9 ∧ w.toNat % 16 ≠ 0) ∨
    w.toNat / 4096 = 0xB ∨
    (w.toNat / 4096 = 0xE ∧ w.toNat % 256 ∉ [0x9E, 0xA1]) ∨
    (w.toNat / 4096 = 0xF ∧ w.toNat % 256 ∉ [0x07, 0x0A, 0x15, 0x18, 0x1E, 0x29, 0x33, 0x55, 0x65])

/-- The assembler reads back every instruction as it is written. -/
def Obligations.AssemblerReadsBack : Prop :=
  ∀ i : Instr, i.wellFormed = true ∧ assemble i.toAsm = some i

/-- A line assembles exactly when it has an operand shape of the map and its numbers are in range. -/
def Obligations.AssemblesExactlyWellFormedLines : Prop :=
  ∀ l : AsmLine, (assemble l).isSome = l.wellFormed

/-! ## The cycle -/

/-- A step of a ready state runs the decoded instruction on the state with `PC` advanced by 2, the host's schedule moved on
by the STEP it issued. That the schedule stands in the state is the model's form (log 4). -/
def Obligations.StepRunsTheDecodedInstruction : Prop :=
  ∀ (s : State) (i : Instr), s.ready → decode s.nextWord = .instr i →
    step s = exec i { s.issue with pc := s.pc + 2 }

/-- Placing a word makes the next step fetch exactly it, and changes nothing the fetch does not need. The placing is the
model's own (log 16). -/
def Obligations.PlacedWordIsFetched : Prop :=
  ∀ (s : State) (w : Word), Memory.wf s.mem →
    (s.withFetchWord 16 w.toNat).ready ∧ (s.withFetchWord 16 w.toNat).nextWord = w ∧
    (s.withFetchWord 16 w.toNat).schedule = Schedule.stepsOnly ∧
    (s.ready → (s.withFetchWord 16 w.toNat).pc = s.pc ∧ (s.withFetchWord 16 w.toNat).fault = s.fault) ∧
    MemorySameOutside (s.withFetchWord 16 w.toNat).pc.toNat 2 s (s.withFetchWord 16 w.toNat) ∧
    OnlyChanges [] [.memory, .pc, .fault, .schedule] s (s.withFetchWord 16 w.toNat)

/-- An unrecognised word: a fault in strict mode, only the advance in non-strict mode, and the event in both. The
fault latch is D14 (log 1); the outputs (log 13) and the schedule (log 4) are the model's form. -/
def Obligations.UnrecognisedWord : Prop :=
  ∀ (s : State) (why : Unrecognised), s.ready → decode s.nextWord = .rejected why →
    Output.unknown s.pc s.nextWord ∈ outputs s ∧
    (s.strict = false → step s = .next { s.issue with pc := s.pc + 2 }) ∧
    (s.strict = true → step s = .next { s.issue with
      pc := s.pc + 2
      fault := { cause := .unknownInstruction, pc := s.pc, word := s.nextWord, info := 0 } })

/-- A fetch outside memory faults before anything else: `PC` is not advanced and no event is emitted. That it is
a fault is the spec's decision D10 (log 10); the schedule is the model's form (log 4). -/
def Obligations.FetchOutsideMemoryFaults : Prop :=
  ∀ s : State, s.nextCommand = .step → s.fault.cause = .none → 0x0FFF ≤ s.pc.toNat →
    outputs s = [] ∧
    ∃ t, step s = .next t ∧ OnlyChanges [] [.fault, .schedule] s t ∧ t.schedule = s.schedule.rest ∧
      t.fault.cause = .addressFault ∧ t.fault.pc = s.pc ∧ t.fault.word = 0 ∧
      t.fault.info.toNat = if 0x0FFF < s.pc.toNat then s.pc.toNat else s.pc.toNat + 1

/-- The events of a STEP that fetches: the trace when `TRACE` = 1, with the registers before execution, then the event of
an unrecognised word. The moment of the snapshot is the spec's decision D18 (log 13). -/
def Obligations.StepEvents : Prop :=
  ∀ s : State, s.ready →
    ((∃ i, decode s.nextWord = .instr i) → s.trace = false → outputs s = []) ∧
    ((∃ i, decode s.nextWord = .instr i) → s.trace = true →
      outputs s = [.trace s.pc s.nextWord (s.reg 0) (s.reg 1) (s.reg 2) (s.reg 3)]) ∧
    ((∃ why, decode s.nextWord = .rejected why) → s.trace = false → outputs s = [.unknown s.pc s.nextWord]) ∧
    ((∃ why, decode s.nextWord = .rejected why) → s.trace = true →
      outputs s = [.trace s.pc s.nextWord (s.reg 0) (s.reg 1) (s.reg 2) (s.reg 3), .unknown s.pc s.nextWord])

/-- Every turn of the machine answers a next state in which the host's schedule has moved on by one command: STEP always
returns, and no command stops the model. -/
def Obligations.EveryTurnReturns : Prop :=
  ∀ s : State, ∃ t, step s = .next t ∧ t.schedule = s.schedule.rest

/-- On a halted block every command but RESET changes nothing of the block; TICK returns 0, LOAD returns Halted, STEP
emits nothing. The halted block is the spec's decision D14 (log 1). -/
def Obligations.HaltedBlockIsInert : Prop :=
  ∀ s : State, s.fault.cause ≠ .none → (∀ trace strict, s.nextCommand ≠ .reset trace strict) →
    step s = .next s.issue ∧
    (s.nextCommand = .step → outputs s = []) ∧ (s.nextCommand = .tick → outputs s = [.beep false]) ∧
    (∀ bytes, s.nextCommand = .load bytes → outputs s = [.loadStatus .halted])

/-- Only RESET leaves the halted state: however many turns go by in which the host issues none, nothing of the block
changes. The halted block is the spec's decision D14 (log 1). -/
def Obligations.OnlyResetLeavesTheHaltedState : Prop :=
  ∀ (n : Nat) (s : State), s.fault.cause ≠ .none →
    (∀ trace strict, Command.reset trace strict ∉ s.schedule.take n) →
    Sys2Proof.core.run n s = .next { s with schedule := s.schedule.drop n }

/-- `TRACE` has no influence on the state: the same turn with the flag at another value gives the same next state but for the
flag itself. -/
def Obligations.TraceHasNoInfluence : Prop :=
  ∀ (s t : State) (b : Bool), (∀ trace strict, s.nextCommand ≠ .reset trace strict) → step s = .next t →
    step { s with trace := b } = .next { t with trace := b }

/-- `STRICT` governs unrecognised words only: a STEP that runs an instruction does the same at either value, one that ends
in an address or key fault included. That the four other causes fault in both modes is the spec's decision D15 (log 17), which R202
and R203 state for the two stack faults. -/
def Obligations.StrictGovernsUnrecognisedWordsOnly : Prop :=
  ∀ (s t : State) (i : Instr) (b : Bool), s.ready → decode s.nextWord = .instr i → step s = .next t →
    step { s with strict := b } = .next { t with strict := b }

/-! ## Frames and faults of all instructions -/

/-- Every instruction changes nothing but its destination registers and the parts the spec lists for it. -/
def Obligations.EveryInstructionKeepsItsFrame : Prop :=
  ∀ (i : Instr) (s t : State), exec i s = .next t → OnlyChanges (destRegs i) (writesParts i) s t

/-- Faults are exact and precise: an instruction faults exactly where `faultOf` says, then only `FAULT` is written;
otherwise `FAULT` stays. That overflow, underflow, an address outside memory and a key above 15 are faults is the spec's decision
(log 10). -/
def Obligations.FaultsAreExactAndPrecise : Prop :=
  ∀ (i : Instr) (s : State),
    (∀ c n, faultOf i s = some (c, n) →
      ∃ t, exec i s = .next t ∧ OnlyChanges [] [.fault] s t ∧
        t.fault = { cause := c, pc := s.pc - 2, word := encode i, info := BitVec.ofNat 17 n }) ∧
    (faultOf i s = none → ∃ t, exec i s = .next t ∧ t.fault = s.fault)

/-! ## Control flow -/

/-- JP sets `PC` to the 12-bit immediate and changes nothing else. -/
def Obligations.JpSetsPc : Prop :=
  ∀ (s : State) (nnn : Addr12),
    ∃ t, exec (.jp nnn) s = .next t ∧ t.pc.toNat = nnn.toNat ∧ OnlyChanges [] [.pc] s t

/-- CALL with room on the stack pushes the advanced `PC` and jumps. -/
def Obligations.CallPushesAndJumps : Prop :=
  ∀ (s : State) (nnn : Addr12), s.sp.val < 16 →
    ∃ t, exec (.call nnn) s = .next t ∧ t.stack[s.sp.val]? = some s.pc ∧ t.sp.val = s.sp.val + 1 ∧
      t.pc.toNat = nnn.toNat ∧ (∀ k : Fin 16, k.val ≠ s.sp.val → t.stack[k] = s.stack[k]) ∧
      OnlyChanges [] [.pc, .stackPointer, .stack] s t

/-- RET with a non-empty stack pops the top entry into `PC` and leaves the entry in place. -/
def Obligations.RetPopsPc : Prop :=
  ∀ s : State, s.sp.val ≠ 0 →
    ∃ t, exec .ret s = .next t ∧ t.sp.val + 1 = s.sp.val ∧ s.stack[t.sp.val]? = some t.pc ∧
      OnlyChanges [] [.pc, .stackPointer] s t

/-- Call then return: a RET that finds the stack as a CALL left it gives back the `PC` the CALL saved and the stack pointer
before it. -/
def Obligations.CallThenReturn : Prop :=
  ∀ (s t u : State) (nnn : Addr12), s.sp.val < 16 → exec (.call nnn) s = .next t →
    u.stack = t.stack → u.sp = t.sp →
    ∃ r, exec .ret u = .next r ∧ r.pc = s.pc ∧ r.sp = s.sp ∧ r.stack = t.stack

/-- The four compare skips add 2 to `PC` exactly when their condition holds and change nothing else. -/
def Obligations.CompareSkips : Prop :=
  (∀ (s : State) (x : Reg) (nn : Byte),
    ∃ t, exec (.seByte x nn) s = .next t ∧ OnlyChanges [] [.pc] s t ∧
      t.pc.toNat = if (s.reg x).toNat = nn.toNat then (s.pc.toNat + 2) % 65536 else s.pc.toNat) ∧
  (∀ (s : State) (x : Reg) (nn : Byte),
    ∃ t, exec (.sneByte x nn) s = .next t ∧ OnlyChanges [] [.pc] s t ∧
      t.pc.toNat = if (s.reg x).toNat ≠ nn.toNat then (s.pc.toNat + 2) % 65536 else s.pc.toNat) ∧
  (∀ (s : State) (x y : Reg),
    ∃ t, exec (.seReg x y) s = .next t ∧ OnlyChanges [] [.pc] s t ∧
      t.pc.toNat = if (s.reg x).toNat = (s.reg y).toNat then (s.pc.toNat + 2) % 65536 else s.pc.toNat) ∧
  (∀ (s : State) (x y : Reg),
    ∃ t, exec (.sneReg x y) s = .next t ∧ OnlyChanges [] [.pc] s t ∧
      t.pc.toNat = if (s.reg x).toNat ≠ (s.reg y).toNat then (s.pc.toNat + 2) % 65536 else s.pc.toNat)

/-! ## Register load and ALU -/

/-- LD Vx, byte and LD Vx, Vy write the destination, `VF` included as a plain destination, and no flag. That LD leaves `VF`
alone is the spec's decision D20 (log 11). -/
def Obligations.RegisterLoads : Prop :=
  (∀ (s : State) (x : Reg) (nn : Byte),
    ∃ t, exec (.ldByte x nn) s = .next t ∧ t.reg x = nn ∧ OnlyChanges [x] [] s t) ∧
  (∀ (s : State) (x y : Reg),
    ∃ t, exec (.ldReg x y) s = .next t ∧ t.reg x = s.reg y ∧ OnlyChanges [x] [] s t)

/-- ADD Vx, byte wraps modulo 256 and writes no flag. -/
def Obligations.AddByteWraps : Prop :=
  ∀ (s : State) (x : Reg) (nn : Byte),
    ∃ t, exec (.addByte x nn) s = .next t ∧ (t.reg x).toNat = ((s.reg x).toNat + nn.toNat) % 256 ∧
      OnlyChanges [x] [] s t

/-- OR, AND and XOR work bit by bit and write no flag. That `VF` stays is the spec's decision (log 11). -/
def Obligations.BitwiseOperations : Prop :=
  (∀ (s : State) (x y : Reg),
    ∃ t, exec (.orReg x y) s = .next t ∧ OnlyChanges [x] [] s t ∧
      ∀ k < 8, (t.reg x).getLsbD k = ((s.reg x).getLsbD k || (s.reg y).getLsbD k)) ∧
  (∀ (s : State) (x y : Reg),
    ∃ t, exec (.andReg x y) s = .next t ∧ OnlyChanges [x] [] s t ∧
      ∀ k < 8, (t.reg x).getLsbD k = ((s.reg x).getLsbD k && (s.reg y).getLsbD k)) ∧
  (∀ (s : State) (x y : Reg),
    ∃ t, exec (.xorReg x y) s = .next t ∧ OnlyChanges [x] [] s t ∧
      ∀ k < 8, (t.reg x).getLsbD k = ((s.reg x).getLsbD k ^^ (s.reg y).getLsbD k))

/-- ADD Vx, Vy: the sum modulo 256, and `VF` = 1 exactly when the sum exceeds 255. For X = 15 the flag is what stays, by the
spec's decision on the order of the two writes (log 6). -/
def Obligations.AddSetsCarry : Prop :=
  ∀ (s : State) (x y : Reg),
    ∃ t, exec (.addReg x y) s = .next t ∧ OnlyChanges [x, 15] [] s t ∧
      (t.reg 15).toNat = (if (s.reg x).toNat + (s.reg y).toNat > 255 then 1 else 0) ∧
      (x ≠ 15 → (t.reg x).toNat = ((s.reg x).toNat + (s.reg y).toNat) % 256)

/-- SUB and SUBN: the difference modulo 256 in either order, and `VF` = 1 exactly when no borrow occurs. For X = 15 the flag is
what stays (log 6); which nibble is which order is general knowledge (log 9). -/
def Obligations.SubtractSetsNoBorrow : Prop :=
  (∀ (s : State) (x y : Reg),
    ∃ t, exec (.subReg x y) s = .next t ∧ OnlyChanges [x, 15] [] s t ∧
      (t.reg 15).toNat = (if (s.reg x).toNat ≥ (s.reg y).toNat then 1 else 0) ∧
      (x ≠ 15 → (t.reg x).toNat = ((s.reg x).toNat + 256 - (s.reg y).toNat) % 256)) ∧
  (∀ (s : State) (x y : Reg),
    ∃ t, exec (.subnReg x y) s = .next t ∧ OnlyChanges [x, 15] [] s t ∧
      (t.reg 15).toNat = (if (s.reg y).toNat ≥ (s.reg x).toNat then 1 else 0) ∧
      (x ≠ 15 → (t.reg x).toNat = ((s.reg y).toNat + 256 - (s.reg x).toNat) % 256))

/-- SHR and SHL shift `V[X]` by one, whatever Y is, and `VF` is the bit shifted out, as 0 or 1. That `V[X]` is shifted is the
spec's decision (log 5), and so is what stays for X = 15 (log 6). -/
def Obligations.ShiftsSetTheBitShiftedOut : Prop :=
  (∀ (s : State) (x y : Reg),
    ∃ t, exec (.shrReg x y) s = .next t ∧ OnlyChanges [x, 15] [] s t ∧
      (t.reg 15).toNat = (s.reg x).toNat % 2 ∧ (x ≠ 15 → (t.reg x).toNat = (s.reg x).toNat / 2)) ∧
  (∀ (s : State) (x y : Reg),
    ∃ t, exec (.shlReg x y) s = .next t ∧ OnlyChanges [x, 15] [] s t ∧
      (t.reg 15).toNat = (s.reg x).toNat / 128 ∧ (x ≠ 15 → (t.reg x).toNat = (s.reg x).toNat * 2 % 256))

/-! ## Index register and memory -/

/-- LD I sets `I` to the 12-bit immediate; ADD I adds a register with 16-bit wrap and no flag. -/
def Obligations.IndexWrites : Prop :=
  (∀ (s : State) (nnn : Addr12),
    ∃ t, exec (.ldI nnn) s = .next t ∧ t.i.toNat = nnn.toNat ∧ OnlyChanges [] [.index] s t) ∧
  (∀ (s : State) (x : Reg),
    ∃ t, exec (.addI x) s = .next t ∧ t.i.toNat = (s.i.toNat + (s.reg x).toNat) % 65536 ∧
      OnlyChanges [] [.index] s t)

/-- LD F sets `I` to the address of the glyph of the low nibble: 0x050 + 5 * digit. -/
def Obligations.FontGlyphAddress : Prop :=
  ∀ (s : State) (x : Reg),
    ∃ t, exec (.ldF x) s = .next t ∧ t.i.toNat = 0x050 + 5 * ((s.reg x).toNat % 16) ∧ OnlyChanges [] [.index] s t

/-- LD B stores hundreds, tens and ones at `I`, `I+1`, `I+2` and no other byte; `I` stays. That `I` stays is the spec's
decision D19 (log 11). -/
def Obligations.DecimalDigitsStored : Prop :=
  ∀ (s : State) (x : Reg), Memory.wf s.mem → s.i.toNat + 2 ≤ 0xFFF →
    ∃ t, exec (.ldB x) s = .next t ∧
      (t.mem.read s.i.toNat).toNat = (s.reg x).toNat / 100 ∧
      (t.mem.read (s.i.toNat + 1)).toNat = (s.reg x).toNat / 10 % 10 ∧
      (t.mem.read (s.i.toNat + 2)).toNat = (s.reg x).toNat % 10 ∧
      MemorySameOutside s.i.toNat 3 s t ∧ OnlyChanges [] [.memory] s t

/-- LD [I], Vx stores `V[0]` to `V[X]` at `I` to `I+X` and no other byte; `I` stays, by the spec's decision D19 (log 11). -/
def Obligations.BulkStore : Prop :=
  ∀ (s : State) (x : Reg), Memory.wf s.mem → s.i.toNat + x.val ≤ 0xFFF →
    ∃ t, exec (.ldMemVx x) s = .next t ∧
      (∀ k : Reg, k ≤ x → t.mem.read (s.i.toNat + k.val) = s.reg k) ∧
      MemorySameOutside s.i.toNat (x.val + 1) s t ∧ OnlyChanges [] [.memory] s t

/-- LD Vx, [I] loads `V[0]` to `V[X]` from `I` to `I+X`; the registers above X stay, and so does `I`, by the
spec's decision D19 (log 11). -/
def Obligations.BulkLoad : Prop :=
  ∀ (s : State) (x : Reg), s.i.toNat + x.val ≤ 0xFFF →
    ∃ t, exec (.ldVxMem x) s = .next t ∧
      (∀ k : Reg, k ≤ x → t.reg k = s.mem.read (s.i.toNat + k.val)) ∧
      (∀ k : Reg, x < k → t.reg k = s.reg k) ∧ OnlyChanges (destRegs (.ldVxMem x)) [] s t

/-- A store over the instruction stream is seen by the next fetch: a state whose memory is what LD [I], Vx left and whose
`PC` is at a stored pair fetches the two stored registers as one word, high byte first. -/
def Obligations.StoredBytesAreFetched : Prop :=
  ∀ (s t u : State) (x k j : Reg), Memory.wf s.mem → s.i.toNat + x.val ≤ 0xFFF → k.val + 1 = j.val → j ≤ x →
    exec (.ldMemVx x) s = .next t → u.mem = t.mem → u.pc.toNat = s.i.toNat + k.val →
    fetch u = .word (s.reg k ++ s.reg j)

/-! ## Display -/

/-- CLS clears every pixel and changes nothing else, `VF` included. -/
def Obligations.ClsClearsTheScreen : Prop :=
  ∀ s : State, ∃ t, exec .cls s = .next t ∧ (∀ x y, Pixels.get t.fb x y = false) ∧ OnlyChanges [] [.pixels] s t

/-- DRW in closed form: it toggles exactly the pixels the sprite covers, wrapping on both axes, and `VF` is 1 exactly when a
covered pixel was 1 before. The origins are read before `VF` is cleared by D7 and `I` stays by D19 (log 11); that X names the
horizontal and Y the vertical origin is general knowledge (G6, log 9). -/
def Obligations.DrwTogglesTheSprite : Prop :=
  ∀ (s : State) (x y : Reg) (n : Nibble), n.toNat = 0 ∨ s.i.toNat + n.toNat - 1 ≤ 0xFFF →
    ∃ t, exec (.drw x y n) s = .next t ∧ OnlyChanges [15] [.pixels] s t ∧
      (∀ px py, spriteCovers s.mem s.i.toNat n.toNat (s.reg x).toNat (s.reg y).toNat px py →
        Pixels.get t.fb px py = !Pixels.get s.fb px py) ∧
      (∀ px py, ¬ spriteCovers s.mem s.i.toNat n.toNat (s.reg x).toNat (s.reg y).toNat px py →
        Pixels.get t.fb px py = Pixels.get s.fb px py) ∧
      ((∃ px py, spriteCovers s.mem s.i.toNat n.toNat (s.reg x).toNat (s.reg y).toNat px py ∧
        Pixels.get s.fb px py = true) → t.reg 15 = 1) ∧
      ((∀ px py, spriteCovers s.mem s.i.toNat n.toNat (s.reg x).toNat (s.reg y).toNat px py →
        Pixels.get s.fb px py = false) → t.reg 15 = 0)

/-- Toggle idempotence: the same sprite drawn twice at the same origin restores the framebuffer. The second flag is 1
exactly when a covered pixel was 0 before the first draw; after a first draw without a collision that is exactly when the
sprite has a 1 bit. Without that condition the spec's sentence does not follow from its own pseudocode (log 18). The second draw
is at the same place because DRW leaves `I` alone, by D19 (log 11); that X is the column and Y the row is general knowledge (G6, log
9). -/
def Obligations.DrawingTwiceRestores : Prop :=
  ∀ (s t : State) (x y : Reg) (n : Nibble), x ≠ 15 → y ≠ 15 →
    (n.toNat = 0 ∨ s.i.toNat + n.toNat ≤ 0x1000) →
    exec (.drw x y n) s = .next t →
    ∃ u, exec (.drw x y n) t = .next u ∧ u.fb = s.fb ∧
      ((∃ px py, spriteCovers s.mem s.i.toNat n.toNat (s.reg x).toNat (s.reg y).toNat px py ∧
        Pixels.get s.fb px py = false) → u.reg 15 = 1) ∧
      ((∀ px py, spriteCovers s.mem s.i.toNat n.toNat (s.reg x).toNat (s.reg y).toNat px py →
        Pixels.get s.fb px py = true) → u.reg 15 = 0) ∧
      (t.reg 15 = 0 → (∃ row < n.toNat, s.mem.read (s.i.toNat + row) ≠ 0) → u.reg 15 = 1) ∧
      ((∀ row < n.toNat, s.mem.read (s.i.toNat + row) = 0) → u.reg 15 = 0)

/-- Wrap, not clip: a full one-row sprite at horizontal origin 60 toggles exactly the columns 60, 61, 62, 63, 0, 1, 2, 3
of its line. That X names the horizontal origin is general knowledge (G6, log 9); for X or Y = 15 the origin is read before `VF` is
cleared, by D7 (log 11). -/
def Obligations.SpriteWrapsColumns : Prop :=
  ∀ (s : State) (x y : Reg), (s.reg x).toNat = 60 → s.i.toNat ≤ 0xFFF → s.mem.read s.i.toNat = 0xFF →
    ∃ t, exec (.drw x y 1) s = .next t ∧
      ∀ px py, (Pixels.get t.fb px py ≠ Pixels.get s.fb px py ↔
        px.val ∈ [60, 61, 62, 63, 0, 1, 2, 3] ∧ py.val = (s.reg y).toNat % 32)

/-! ## Random, keypad, timers -/

/-- RND: the free random byte ANDed with the mask, so every bit that is 0 in the mask is 0 in the result. Nothing is said of the
byte itself (log 3). -/
def Obligations.RandomByteIsMasked : Prop :=
  ∀ (s : State) (x : Reg) (nn : Byte),
    ∃ t, exec (.rnd x nn) s = .next t ∧ t.reg x = Config.rand s.randDraws &&& nn ∧ t.reg x &&& ~~~nn = 0 ∧
      t.randDraws = s.randDraws + 1 ∧ OnlyChanges [x] [.random] s t

/-- SKP and SKNP skip on the state of the key `V[X]` names, for V[X] up to 15. -/
def Obligations.KeySkips : Prop :=
  ∀ (s : State) (x : Reg) (k : Fin 16), (s.reg x).toNat = k.val →
    (∃ t, exec (.skp x) s = .next t ∧ OnlyChanges [] [.pc] s t ∧
      t.pc.toNat = if s.keys[k] = true then (s.pc.toNat + 2) % 65536 else s.pc.toNat) ∧
    (∃ t, exec (.sknp x) s = .next t ∧ OnlyChanges [] [.pc] s t ∧
      t.pc.toNat = if s.keys[k] = false then (s.pc.toNat + 2) % 65536 else s.pc.toNat)

/-- The three timer instructions: read the delay timer, write the delay timer, write the sound timer. -/
def Obligations.TimerInstructions : Prop :=
  ∀ (s : State) (x : Reg),
    (∃ t, exec (.ldVxDt x) s = .next t ∧ t.reg x = s.dt ∧ OnlyChanges [x] [] s t) ∧
    (∃ t, exec (.ldDtVx x) s = .next t ∧ t.dt = s.reg x ∧ OnlyChanges [] [.delay] s t) ∧
    (∃ t, exec (.ldStVx x) s = .next t ∧ t.st = s.reg x ∧ OnlyChanges [] [.sound] s t)

/-- LD Vx, K with a key down loads the number of the lowest key that is down (the lowest by the spec's default, log
7) and completes at once. -/
def Obligations.KeyWaitTakesTheLowestKey : Prop :=
  ∀ (s : State) (x : Reg) (k : Fin 16), s.keys[k] = true → (∀ j : Fin 16, j < k → s.keys[j] = false) →
    ∃ t, exec (.ldVxK x) s = .next t ∧ (t.reg x).toNat = k.val ∧ OnlyChanges [x] [] s t

/-- The spin: at LD Vx, K, in every interleaving of STEP, TICK and SETKEYS in which no key goes down, nothing changes but the
two timers and the host's schedule; in a run of STEPs alone nothing changes but the schedule. How long the run is makes no difference. The
schedule is the model's form (log 4). -/
def Obligations.KeyWaitSpinsForEver : Prop :=
  ∀ (s : State) (x : Reg) (n : Nat), s.fault.cause = .none → s.pc.toNat + 1 ≤ 0xFFF →
    decode s.nextWord = .instr (.ldVxK x) → (∀ k : Fin 16, s.keys[k] = false) →
    ((∀ c ∈ s.schedule.take n, c = .step ∨ c = .tick ∨ c = .setKeys (Vector.replicate 16 false)) →
      ∃ t, Sys2Proof.core.run n s = .next t ∧ OnlyChanges [] [.delay, .sound, .schedule] s t ∧
        t.schedule = s.schedule.drop n) ∧
    ((∀ c ∈ s.schedule.take n, c = .step) →
      Sys2Proof.core.run n s = .next { s with schedule := s.schedule.drop n })

/-! ## Commands -/

/-- TICK: each timer counts down once if it is not 0, and `beep` is 1 exactly when the sound timer was not 0; on a halted block
nothing changes and `beep` is 0. The halted block is D14 (log 1); `beep` as a function of the state before the turn (log 13) and the
host's schedule (log 4) are the model's form. -/
def Obligations.TickCountsDown : Prop :=
  ∀ s : State, s.nextCommand = .tick →
    (s.fault.cause = .none →
      outputs s = [.beep (decide (s.st.toNat ≠ 0))] ∧
      ∃ t, step s = .next t ∧ t.dt.toNat = s.dt.toNat - 1 ∧ t.st.toNat = s.st.toNat - 1 ∧
        t.schedule = s.schedule.rest ∧ OnlyChanges [] [.delay, .sound, .schedule] s t) ∧
    (s.fault.cause ≠ .none → outputs s = [.beep false] ∧ step s = .next s.issue)

/-- Any number of TICKs never takes a timer below 0: n turns in which the host issues TICK leave each timer at its value
less n, or 0. The schedule is the model's form (log 4). -/
def Obligations.TimersStopAtZero : Prop :=
  ∀ (n : Nat) (s : State), s.fault.cause = .none → s.schedule.take n = List.replicate n .tick →
    ∃ t, Sys2Proof.core.run n s = .next t ∧ t.dt.toNat = s.dt.toNat - n ∧ t.st.toNat = s.st.toNat - n ∧
      t.schedule = s.schedule.drop n ∧ OnlyChanges [] [.delay, .sound, .schedule] s t

/-- SETKEYS replaces all sixteen key states and changes nothing else; on a halted block it changes nothing. The halted
block is D14 (log 1); the host's schedule is the model's form (log 4). -/
def Obligations.SetKeysReplacesAll : Prop :=
  ∀ (s : State) (keys : Keys), s.nextCommand = .setKeys keys →
    (s.fault.cause = .none →
      ∃ t, step s = .next t ∧ t.keys = keys ∧ t.schedule = s.schedule.rest ∧
        OnlyChanges [] [.keys, .schedule] s t) ∧
    (s.fault.cause ≠ .none → step s = .next s.issue)

/-- LOAD copies the image to 0x200 upward and writes nothing else; an image over 3584 bytes is rejected with nothing
written (D26, log 17); on a halted block the status is Halted (D14, log 1). The status as a function of the state (log 13) and the
host's schedule (log 4) are the model's form. -/
def Obligations.LoadCopiesTheImage : Prop :=
  ∀ (s : State) (bytes : List Byte), Memory.wf s.mem → s.nextCommand = .load bytes →
    (s.fault.cause = .none → bytes.length ≤ 3584 →
      outputs s = [.loadStatus .ok] ∧
      ∃ t, step s = .next t ∧ (∀ j, ∀ h : j < bytes.length, t.mem.read (0x200 + j) = bytes[j]) ∧
        MemorySameOutside 0x200 bytes.length s t ∧ t.schedule = s.schedule.rest ∧
        OnlyChanges [] [.memory, .schedule] s t) ∧
    (s.fault.cause = .none → 3584 < bytes.length →
      outputs s = [.loadStatus .loadOverrun] ∧ step s = .next s.issue) ∧
    (s.fault.cause ≠ .none → outputs s = [.loadStatus .halted] ∧ step s = .next s.issue)

/-- RESET, from any state, halted or not: everything zero but `PC` and the font table, the two flags as given. RESET at any
time is D28 (log 17), `FAULT` is the spec's own state, D14 (log 1); that the host's schedule and random source go on is the model's
choice (logs 4 and 14). -/
def Obligations.ResetClearsEverything : Prop :=
  ∀ (s : State) (trace strict : Bool), s.nextCommand = .reset trace strict →
    ∃ t, step s = .next t ∧ (∀ k, t.reg k = 0) ∧ t.i = 0 ∧ t.pc.toNat = 0x0200 ∧ t.sp.val = 0 ∧
      (∀ k : Fin 16, t.stack[k] = 0) ∧ t.dt = 0 ∧ t.st = 0 ∧
      (∀ a, a < 0x050 ∨ 0x0A0 ≤ a → t.mem.read a = 0) ∧
      (∀ j < 80, some (t.mem.read (0x050 + j)) = font[j]?) ∧
      (∀ x y, Pixels.get t.fb x y = false) ∧ (∀ k : Fin 16, t.keys[k] = false) ∧
      t.trace = trace ∧ t.strict = strict ∧
      t.fault = { cause := .none, pc := 0, word := 0, info := 0 } ∧
      t.schedule = s.schedule.rest ∧ t.randDraws = s.randDraws

/-! ## Invariants -/

/-- The state after reset meets the invariant. -/
def Obligations.ResetMeetsTheInvariant : Prop := State.reset.Inv

/-- Every turn keeps the invariant: memory stays in canonical form, no stack entry exceeds 0x1000, `PC` stays at most
0x1002, and `FAULT` stays legal. -/
def Obligations.EveryTurnKeepsTheInvariant : Prop :=
  ∀ s t : State, s.Inv → step s = .next t → t.Inv
end

