-- ==== Sys2Proof/Laws/Decode.lean ====
section
/-! SUPPORT. The fields of a word put together from its fields, and the two halves of a word, all through the numbers
they stand for. -/

namespace Sys2Proof

/-- The number of a concatenation. -/
theorem append_toNat {n m : Nat} (a : BitVec n) (b : BitVec m) : (a ++ b).toNat = a.toNat * 2 ^ m + b.toNat := by
  rw [BitVec.toNat_append, ← Nat.shiftLeft_add_eq_or_of_lt b.isLt, Nat.shiftLeft_eq]

theorem formatA_toNat (op : BitVec 4) (n : Addr12) : (formatA op n).toNat = op.toNat * 4096 + n.toNat :=
  append_toNat op n

theorem regField_toNat (x : Reg) : (regField x).toNat = x.val := rfl

theorem formatX_toNat (op : BitVec 4) (x : Reg) (b : Byte) :
    (formatX op x b).toNat = (op.toNat * 16 + x.val) * 256 + b.toNat := by
  have h1 := append_toNat (op ++ regField x) b
  rw [append_toNat op (regField x)] at h1
  exact h1

theorem formatXY_toNat (op : BitVec 4) (x y : Reg) (n : Nibble) :
    (formatXY op x y n).toNat = ((op.toNat * 16 + x.val) * 16 + y.val) * 16 + n.toNat := by
  have h1 := append_toNat (op ++ regField x ++ regField y) n
  rw [append_toNat (op ++ regField x) (regField y), append_toNat op (regField x)] at h1
  exact h1

theorem wordOfBytes_toNat (hi lo : Byte) : (wordOfBytes hi lo).toNat = hi.toNat * 256 + lo.toNat :=
  append_toNat hi lo

theorem fieldOp_toNat (w : Word) : (fieldOp w).toNat = w.toNat / 4096 % 16 := by
  simp [fieldOp, BitVec.extractLsb'_toNat, Nat.shiftRight_eq_div_pow]

theorem fieldX_val (w : Word) : (fieldX w).val = w.toNat / 256 % 16 := by
  show (w.extractLsb' 8 4).toNat = _
  simp [BitVec.extractLsb'_toNat, Nat.shiftRight_eq_div_pow]

theorem fieldY_val (w : Word) : (fieldY w).val = w.toNat / 16 % 16 := by
  show (w.extractLsb' 4 4).toNat = _
  simp [BitVec.extractLsb'_toNat, Nat.shiftRight_eq_div_pow]

theorem fieldN_toNat (w : Word) : (fieldN w).toNat = w.toNat % 16 := by
  simp [fieldN, BitVec.extractLsb'_toNat]

theorem fieldNN_toNat (w : Word) : (fieldNN w).toNat = w.toNat % 256 := by
  simp [fieldNN, BitVec.extractLsb'_toNat]

theorem fieldNNN_toNat (w : Word) : (fieldNNN w).toNat = w.toNat % 4096 := by
  simp [fieldNNN, BitVec.extractLsb'_toNat]

theorem hiByte_toNat (w : Word) : (hiByte w).toNat = w.toNat / 256 := by
  have := w.isLt
  simp [hiByte, BitVec.extractLsb'_toNat, Nat.shiftRight_eq_div_pow]
  omega

theorem loByte_toNat (w : Word) : (loByte w).toNat = w.toNat % 256 := by
  simp [loByte, BitVec.extractLsb'_toNat]

@[simp] theorem fieldOp_formatA (op : BitVec 4) (n : Addr12) : fieldOp (formatA op n) = op := by
  apply BitVec.eq_of_toNat_eq
  rw [fieldOp_toNat, formatA_toNat]
  omega

@[simp] theorem fieldNNN_formatA (op : BitVec 4) (n : Addr12) : fieldNNN (formatA op n) = n := by
  apply BitVec.eq_of_toNat_eq
  rw [fieldNNN_toNat, formatA_toNat]
  omega

@[simp] theorem fieldOp_formatX (op : BitVec 4) (x : Reg) (b : Byte) : fieldOp (formatX op x b) = op := by
  apply BitVec.eq_of_toNat_eq
  rw [fieldOp_toNat, formatX_toNat]
  omega

@[simp] theorem fieldX_formatX (op : BitVec 4) (x : Reg) (b : Byte) : fieldX (formatX op x b) = x := by
  apply Fin.ext
  rw [fieldX_val, formatX_toNat]
  omega

@[simp] theorem fieldNN_formatX (op : BitVec 4) (x : Reg) (b : Byte) : fieldNN (formatX op x b) = b := by
  apply BitVec.eq_of_toNat_eq
  rw [fieldNN_toNat, formatX_toNat]
  omega

@[simp] theorem fieldOp_formatXY (op : BitVec 4) (x y : Reg) (n : Nibble) : fieldOp (formatXY op x y n) = op := by
  apply BitVec.eq_of_toNat_eq
  rw [fieldOp_toNat, formatXY_toNat]
  omega

@[simp] theorem fieldX_formatXY (op : BitVec 4) (x y : Reg) (n : Nibble) : fieldX (formatXY op x y n) = x := by
  apply Fin.ext
  rw [fieldX_val, formatXY_toNat]
  omega

@[simp] theorem fieldY_formatXY (op : BitVec 4) (x y : Reg) (n : Nibble) : fieldY (formatXY op x y n) = y := by
  apply Fin.ext
  rw [fieldY_val, formatXY_toNat]
  omega

@[simp] theorem fieldN_formatXY (op : BitVec 4) (x y : Reg) (n : Nibble) : fieldN (formatXY op x y n) = n := by
  apply BitVec.eq_of_toNat_eq
  rw [fieldN_toNat, formatXY_toNat]
  omega

/-- A word of format `A` is its fields put together. -/
theorem formatA_fields (w : Word) : formatA (fieldOp w) (fieldNNN w) = w := by
  apply BitVec.eq_of_toNat_eq
  have := w.isLt
  rw [formatA_toNat, fieldOp_toNat, fieldNNN_toNat]
  omega

/-- A word of format `XI` or `XF` is its fields put together. -/
theorem formatX_fields (w : Word) : formatX (fieldOp w) (fieldX w) (fieldNN w) = w := by
  apply BitVec.eq_of_toNat_eq
  have := w.isLt
  rw [formatX_toNat, fieldOp_toNat, fieldX_val, fieldNN_toNat]
  omega

/-- A word of format `XY` or `XYN` is its fields put together. -/
theorem formatXY_fields (w : Word) : formatXY (fieldOp w) (fieldX w) (fieldY w) (fieldN w) = w := by
  apply BitVec.eq_of_toNat_eq
  have := w.isLt
  rw [formatXY_toNat, fieldOp_toNat, fieldX_val, fieldY_val, fieldN_toNat]
  omega

/-- A word is its two bytes. -/
@[simp] theorem wordOfBytes_hi_lo (w : Word) : wordOfBytes (hiByte w) (loByte w) = w := by
  apply BitVec.eq_of_toNat_eq
  rw [wordOfBytes_toNat, hiByte_toNat, loByte_toNat]
  omega

@[simp] theorem hiByte_wordOfBytes (hi lo : Byte) : hiByte (wordOfBytes hi lo) = hi := by
  apply BitVec.eq_of_toNat_eq
  rw [hiByte_toNat, wordOfBytes_toNat]
  omega

@[simp] theorem loByte_wordOfBytes (hi lo : Byte) : loByte (wordOfBytes hi lo) = lo := by
  apply BitVec.eq_of_toNat_eq
  rw [loByte_toNat, wordOfBytes_toNat]
  omega

/-! ## The masks of R70 keep whole fields -/

theorem and_mask_op (w : Word) : w &&& 0xF000#16 = formatA (fieldOp w) 0#12 := by
  apply BitVec.eq_of_getLsbD_eq
  intro k hk
  have e : (formatA (fieldOp w) 0#12).getLsbD k =
      if k < 12 then (0#12).getLsbD k else (fieldOp w).getLsbD (k - 12) := BitVec.getLsbD_append
  rw [e, BitVec.getLsbD_and]
  simp only [fieldOp, BitVec.getLsbD_extractLsb']
  interval_cases k <;> simp

theorem and_mask_op_n (w : Word) : w &&& 0xF00F#16 = formatXY (fieldOp w) 0 0 (fieldN w) := by
  apply BitVec.eq_of_getLsbD_eq
  intro k hk
  have e : (formatXY (fieldOp w) 0 0 (fieldN w)).getLsbD k =
      if k < 4 then (fieldN w).getLsbD k else ((fieldOp w) ++ 0#4 ++ 0#4 : BitVec 12).getLsbD (k - 4) :=
    BitVec.getLsbD_append
  have e2 (j : Nat) : ((fieldOp w) ++ 0#4 ++ 0#4 : BitVec 12).getLsbD j =
      if j < 4 then (0#4).getLsbD j else ((fieldOp w) ++ 0#4 : BitVec 8).getLsbD (j - 4) := BitVec.getLsbD_append
  have e3 (j : Nat) : ((fieldOp w) ++ 0#4 : BitVec 8).getLsbD j =
      if j < 4 then (0#4).getLsbD j else (fieldOp w).getLsbD (j - 4) := BitVec.getLsbD_append
  rw [e, e2, e3, BitVec.getLsbD_and]
  simp only [fieldOp, fieldN, BitVec.getLsbD_extractLsb']
  interval_cases k <;> simp

theorem and_mask_op_nn (w : Word) : w &&& 0xF0FF#16 = formatX (fieldOp w) 0 (fieldNN w) := by
  apply BitVec.eq_of_getLsbD_eq
  intro k hk
  have e : (formatX (fieldOp w) 0 (fieldNN w)).getLsbD k =
      if k < 8 then (fieldNN w).getLsbD k else ((fieldOp w) ++ 0#4 : BitVec 8).getLsbD (k - 8) :=
    BitVec.getLsbD_append
  have e3 (j : Nat) : ((fieldOp w) ++ 0#4 : BitVec 8).getLsbD j =
      if j < 4 then (0#4).getLsbD j else (fieldOp w).getLsbD (j - 4) := BitVec.getLsbD_append
  rw [e, e3, BitVec.getLsbD_and]
  simp only [fieldOp, fieldNN, BitVec.getLsbD_extractLsb']
  interval_cases k <;> simp

end Sys2Proof
end

