-- ==== Sys2Proof/Laws/State.lean ====
section
/-! SUPPORT. One lemma per field per named update of State, so that no proof unfolds a record update. -/

namespace Sys2Proof.Machine

open Sys2Proof

/-! ### setReg -/

@[simp] theorem State.setReg_i (s : State) (x : Reg) (b : Byte) : (s.setReg x b).i = s.i := rfl
@[simp] theorem State.setReg_pc (s : State) (x : Reg) (b : Byte) : (s.setReg x b).pc = s.pc := rfl
@[simp] theorem State.setReg_sp (s : State) (x : Reg) (b : Byte) : (s.setReg x b).sp = s.sp := rfl
@[simp] theorem State.setReg_stack (s : State) (x : Reg) (b : Byte) : (s.setReg x b).stack = s.stack := rfl
@[simp] theorem State.setReg_dt (s : State) (x : Reg) (b : Byte) : (s.setReg x b).dt = s.dt := rfl
@[simp] theorem State.setReg_st (s : State) (x : Reg) (b : Byte) : (s.setReg x b).st = s.st := rfl
@[simp] theorem State.setReg_mem (s : State) (x : Reg) (b : Byte) : (s.setReg x b).mem = s.mem := rfl
@[simp] theorem State.setReg_fb (s : State) (x : Reg) (b : Byte) : (s.setReg x b).fb = s.fb := rfl
@[simp] theorem State.setReg_keys (s : State) (x : Reg) (b : Byte) : (s.setReg x b).keys = s.keys := rfl
@[simp] theorem State.setReg_trace (s : State) (x : Reg) (b : Byte) : (s.setReg x b).trace = s.trace := rfl
@[simp] theorem State.setReg_strict (s : State) (x : Reg) (b : Byte) : (s.setReg x b).strict = s.strict := rfl
@[simp] theorem State.setReg_fault (s : State) (x : Reg) (b : Byte) : (s.setReg x b).fault = s.fault := rfl
@[simp] theorem State.setReg_randDraws (s : State) (x : Reg) (b : Byte) : (s.setReg x b).randDraws = s.randDraws := rfl
@[simp] theorem State.setReg_schedule (s : State) (x : Reg) (b : Byte) : (s.setReg x b).schedule = s.schedule := rfl
@[simp] theorem State.setReg_v (s : State) (x : Reg) (b : Byte) : (s.setReg x b).v = s.v.set x.val b x.isLt := rfl

/-! ### loadRegs -/

@[simp] theorem State.loadRegs_i (s : State) (base : Nat) (x : Reg) : (s.loadRegs base x).i = s.i := rfl
@[simp] theorem State.loadRegs_pc (s : State) (base : Nat) (x : Reg) : (s.loadRegs base x).pc = s.pc := rfl
@[simp] theorem State.loadRegs_sp (s : State) (base : Nat) (x : Reg) : (s.loadRegs base x).sp = s.sp := rfl
@[simp] theorem State.loadRegs_stack (s : State) (base : Nat) (x : Reg) : (s.loadRegs base x).stack = s.stack := rfl
@[simp] theorem State.loadRegs_dt (s : State) (base : Nat) (x : Reg) : (s.loadRegs base x).dt = s.dt := rfl
@[simp] theorem State.loadRegs_st (s : State) (base : Nat) (x : Reg) : (s.loadRegs base x).st = s.st := rfl
@[simp] theorem State.loadRegs_mem (s : State) (base : Nat) (x : Reg) : (s.loadRegs base x).mem = s.mem := rfl
@[simp] theorem State.loadRegs_fb (s : State) (base : Nat) (x : Reg) : (s.loadRegs base x).fb = s.fb := rfl
@[simp] theorem State.loadRegs_keys (s : State) (base : Nat) (x : Reg) : (s.loadRegs base x).keys = s.keys := rfl
@[simp] theorem State.loadRegs_trace (s : State) (base : Nat) (x : Reg) : (s.loadRegs base x).trace = s.trace := rfl
@[simp] theorem State.loadRegs_strict (s : State) (base : Nat) (x : Reg) : (s.loadRegs base x).strict = s.strict := rfl
@[simp] theorem State.loadRegs_fault (s : State) (base : Nat) (x : Reg) : (s.loadRegs base x).fault = s.fault := rfl
@[simp] theorem State.loadRegs_randDraws (s : State) (base : Nat) (x : Reg) : (s.loadRegs base x).randDraws = s.randDraws := rfl
@[simp] theorem State.loadRegs_schedule (s : State) (base : Nat) (x : Reg) : (s.loadRegs base x).schedule = s.schedule := rfl

/-! ### advance -/

@[simp] theorem State.advance_v (s : State) : (s.advance).v = s.v := rfl
@[simp] theorem State.advance_i (s : State) : (s.advance).i = s.i := rfl
@[simp] theorem State.advance_sp (s : State) : (s.advance).sp = s.sp := rfl
@[simp] theorem State.advance_stack (s : State) : (s.advance).stack = s.stack := rfl
@[simp] theorem State.advance_dt (s : State) : (s.advance).dt = s.dt := rfl
@[simp] theorem State.advance_st (s : State) : (s.advance).st = s.st := rfl
@[simp] theorem State.advance_mem (s : State) : (s.advance).mem = s.mem := rfl
@[simp] theorem State.advance_fb (s : State) : (s.advance).fb = s.fb := rfl
@[simp] theorem State.advance_keys (s : State) : (s.advance).keys = s.keys := rfl
@[simp] theorem State.advance_trace (s : State) : (s.advance).trace = s.trace := rfl
@[simp] theorem State.advance_strict (s : State) : (s.advance).strict = s.strict := rfl
@[simp] theorem State.advance_fault (s : State) : (s.advance).fault = s.fault := rfl
@[simp] theorem State.advance_randDraws (s : State) : (s.advance).randDraws = s.randDraws := rfl
@[simp] theorem State.advance_schedule (s : State) : (s.advance).schedule = s.schedule := rfl
@[simp] theorem State.advance_pc (s : State) : (s.advance).pc = s.pc + Config.instrBytes := rfl

/-! ### rewind -/

@[simp] theorem State.rewind_v (s : State) : (s.rewind).v = s.v := rfl
@[simp] theorem State.rewind_i (s : State) : (s.rewind).i = s.i := rfl
@[simp] theorem State.rewind_sp (s : State) : (s.rewind).sp = s.sp := rfl
@[simp] theorem State.rewind_stack (s : State) : (s.rewind).stack = s.stack := rfl
@[simp] theorem State.rewind_dt (s : State) : (s.rewind).dt = s.dt := rfl
@[simp] theorem State.rewind_st (s : State) : (s.rewind).st = s.st := rfl
@[simp] theorem State.rewind_mem (s : State) : (s.rewind).mem = s.mem := rfl
@[simp] theorem State.rewind_fb (s : State) : (s.rewind).fb = s.fb := rfl
@[simp] theorem State.rewind_keys (s : State) : (s.rewind).keys = s.keys := rfl
@[simp] theorem State.rewind_trace (s : State) : (s.rewind).trace = s.trace := rfl
@[simp] theorem State.rewind_strict (s : State) : (s.rewind).strict = s.strict := rfl
@[simp] theorem State.rewind_fault (s : State) : (s.rewind).fault = s.fault := rfl
@[simp] theorem State.rewind_randDraws (s : State) : (s.rewind).randDraws = s.randDraws := rfl
@[simp] theorem State.rewind_schedule (s : State) : (s.rewind).schedule = s.schedule := rfl
@[simp] theorem State.rewind_pc (s : State) : (s.rewind).pc = s.pc - Config.instrBytes := rfl

/-! ### jump -/

@[simp] theorem State.jump_v (s : State) (target : Word) : (s.jump target).v = s.v := rfl
@[simp] theorem State.jump_i (s : State) (target : Word) : (s.jump target).i = s.i := rfl
@[simp] theorem State.jump_sp (s : State) (target : Word) : (s.jump target).sp = s.sp := rfl
@[simp] theorem State.jump_stack (s : State) (target : Word) : (s.jump target).stack = s.stack := rfl
@[simp] theorem State.jump_dt (s : State) (target : Word) : (s.jump target).dt = s.dt := rfl
@[simp] theorem State.jump_st (s : State) (target : Word) : (s.jump target).st = s.st := rfl
@[simp] theorem State.jump_mem (s : State) (target : Word) : (s.jump target).mem = s.mem := rfl
@[simp] theorem State.jump_fb (s : State) (target : Word) : (s.jump target).fb = s.fb := rfl
@[simp] theorem State.jump_keys (s : State) (target : Word) : (s.jump target).keys = s.keys := rfl
@[simp] theorem State.jump_trace (s : State) (target : Word) : (s.jump target).trace = s.trace := rfl
@[simp] theorem State.jump_strict (s : State) (target : Word) : (s.jump target).strict = s.strict := rfl
@[simp] theorem State.jump_fault (s : State) (target : Word) : (s.jump target).fault = s.fault := rfl
@[simp] theorem State.jump_randDraws (s : State) (target : Word) : (s.jump target).randDraws = s.randDraws := rfl
@[simp] theorem State.jump_schedule (s : State) (target : Word) : (s.jump target).schedule = s.schedule := rfl
@[simp] theorem State.jump_pc (s : State) (target : Word) : (s.jump target).pc = target := rfl

/-! ### push -/

@[simp] theorem State.push_v (s : State) (h : s.sp.val < 16) : (s.push h).v = s.v := rfl
@[simp] theorem State.push_i (s : State) (h : s.sp.val < 16) : (s.push h).i = s.i := rfl
@[simp] theorem State.push_pc (s : State) (h : s.sp.val < 16) : (s.push h).pc = s.pc := rfl
@[simp] theorem State.push_dt (s : State) (h : s.sp.val < 16) : (s.push h).dt = s.dt := rfl
@[simp] theorem State.push_st (s : State) (h : s.sp.val < 16) : (s.push h).st = s.st := rfl
@[simp] theorem State.push_mem (s : State) (h : s.sp.val < 16) : (s.push h).mem = s.mem := rfl
@[simp] theorem State.push_fb (s : State) (h : s.sp.val < 16) : (s.push h).fb = s.fb := rfl
@[simp] theorem State.push_keys (s : State) (h : s.sp.val < 16) : (s.push h).keys = s.keys := rfl
@[simp] theorem State.push_trace (s : State) (h : s.sp.val < 16) : (s.push h).trace = s.trace := rfl
@[simp] theorem State.push_strict (s : State) (h : s.sp.val < 16) : (s.push h).strict = s.strict := rfl
@[simp] theorem State.push_fault (s : State) (h : s.sp.val < 16) : (s.push h).fault = s.fault := rfl
@[simp] theorem State.push_randDraws (s : State) (h : s.sp.val < 16) : (s.push h).randDraws = s.randDraws := rfl
@[simp] theorem State.push_schedule (s : State) (h : s.sp.val < 16) : (s.push h).schedule = s.schedule := rfl
@[simp] theorem State.push_stack (s : State) (h : s.sp.val < 16) : (s.push h).stack = s.stack.set s.sp.val s.pc h := rfl
@[simp] theorem State.push_sp (s : State) (h : s.sp.val < 16) : (s.push h).sp.val = s.sp.val + 1 := rfl

/-! ### pop -/

@[simp] theorem State.pop_v (s : State) (h : s.sp.val ≠ 0) : (s.pop h).v = s.v := rfl
@[simp] theorem State.pop_i (s : State) (h : s.sp.val ≠ 0) : (s.pop h).i = s.i := rfl
@[simp] theorem State.pop_stack (s : State) (h : s.sp.val ≠ 0) : (s.pop h).stack = s.stack := rfl
@[simp] theorem State.pop_dt (s : State) (h : s.sp.val ≠ 0) : (s.pop h).dt = s.dt := rfl
@[simp] theorem State.pop_st (s : State) (h : s.sp.val ≠ 0) : (s.pop h).st = s.st := rfl
@[simp] theorem State.pop_mem (s : State) (h : s.sp.val ≠ 0) : (s.pop h).mem = s.mem := rfl
@[simp] theorem State.pop_fb (s : State) (h : s.sp.val ≠ 0) : (s.pop h).fb = s.fb := rfl
@[simp] theorem State.pop_keys (s : State) (h : s.sp.val ≠ 0) : (s.pop h).keys = s.keys := rfl
@[simp] theorem State.pop_trace (s : State) (h : s.sp.val ≠ 0) : (s.pop h).trace = s.trace := rfl
@[simp] theorem State.pop_strict (s : State) (h : s.sp.val ≠ 0) : (s.pop h).strict = s.strict := rfl
@[simp] theorem State.pop_fault (s : State) (h : s.sp.val ≠ 0) : (s.pop h).fault = s.fault := rfl
@[simp] theorem State.pop_randDraws (s : State) (h : s.sp.val ≠ 0) : (s.pop h).randDraws = s.randDraws := rfl
@[simp] theorem State.pop_schedule (s : State) (h : s.sp.val ≠ 0) : (s.pop h).schedule = s.schedule := rfl
@[simp] theorem State.pop_pc (s : State) (h : s.sp.val ≠ 0) : (s.pop h).pc = s.stack[s.sp.val - 1]'(by omega) := rfl
@[simp] theorem State.pop_sp (s : State) (h : s.sp.val ≠ 0) : (s.pop h).sp.val = s.sp.val - 1 := rfl

/-! ### raise -/

@[simp] theorem State.raise_v (s : State) (c : FaultCause) (pc w : Word) (info : BitVec 17) : (s.raise c pc w info).v = s.v := rfl
@[simp] theorem State.raise_i (s : State) (c : FaultCause) (pc w : Word) (info : BitVec 17) : (s.raise c pc w info).i = s.i := rfl
@[simp] theorem State.raise_pc (s : State) (c : FaultCause) (pc w : Word) (info : BitVec 17) : (s.raise c pc w info).pc = s.pc := rfl
@[simp] theorem State.raise_sp (s : State) (c : FaultCause) (pc w : Word) (info : BitVec 17) : (s.raise c pc w info).sp = s.sp := rfl
@[simp] theorem State.raise_stack (s : State) (c : FaultCause) (pc w : Word) (info : BitVec 17) : (s.raise c pc w info).stack = s.stack := rfl
@[simp] theorem State.raise_dt (s : State) (c : FaultCause) (pc w : Word) (info : BitVec 17) : (s.raise c pc w info).dt = s.dt := rfl
@[simp] theorem State.raise_st (s : State) (c : FaultCause) (pc w : Word) (info : BitVec 17) : (s.raise c pc w info).st = s.st := rfl
@[simp] theorem State.raise_mem (s : State) (c : FaultCause) (pc w : Word) (info : BitVec 17) : (s.raise c pc w info).mem = s.mem := rfl
@[simp] theorem State.raise_fb (s : State) (c : FaultCause) (pc w : Word) (info : BitVec 17) : (s.raise c pc w info).fb = s.fb := rfl
@[simp] theorem State.raise_keys (s : State) (c : FaultCause) (pc w : Word) (info : BitVec 17) : (s.raise c pc w info).keys = s.keys := rfl
@[simp] theorem State.raise_trace (s : State) (c : FaultCause) (pc w : Word) (info : BitVec 17) : (s.raise c pc w info).trace = s.trace := rfl
@[simp] theorem State.raise_strict (s : State) (c : FaultCause) (pc w : Word) (info : BitVec 17) : (s.raise c pc w info).strict = s.strict := rfl
@[simp] theorem State.raise_randDraws (s : State) (c : FaultCause) (pc w : Word) (info : BitVec 17) : (s.raise c pc w info).randDraws = s.randDraws := rfl
@[simp] theorem State.raise_schedule (s : State) (c : FaultCause) (pc w : Word) (info : BitVec 17) : (s.raise c pc w info).schedule = s.schedule := rfl
@[simp] theorem State.raise_fault (s : State) (c : FaultCause) (pc w : Word) (info : BitVec 17) : (s.raise c pc w info).fault = { cause := c, pc := pc, word := w, info := info } := rfl

/-! ### drawRand -/

@[simp] theorem State.drawRand_v (s : State) : (s.drawRand).v = s.v := rfl
@[simp] theorem State.drawRand_i (s : State) : (s.drawRand).i = s.i := rfl
@[simp] theorem State.drawRand_pc (s : State) : (s.drawRand).pc = s.pc := rfl
@[simp] theorem State.drawRand_sp (s : State) : (s.drawRand).sp = s.sp := rfl
@[simp] theorem State.drawRand_stack (s : State) : (s.drawRand).stack = s.stack := rfl
@[simp] theorem State.drawRand_dt (s : State) : (s.drawRand).dt = s.dt := rfl
@[simp] theorem State.drawRand_st (s : State) : (s.drawRand).st = s.st := rfl
@[simp] theorem State.drawRand_mem (s : State) : (s.drawRand).mem = s.mem := rfl
@[simp] theorem State.drawRand_fb (s : State) : (s.drawRand).fb = s.fb := rfl
@[simp] theorem State.drawRand_keys (s : State) : (s.drawRand).keys = s.keys := rfl
@[simp] theorem State.drawRand_trace (s : State) : (s.drawRand).trace = s.trace := rfl
@[simp] theorem State.drawRand_strict (s : State) : (s.drawRand).strict = s.strict := rfl
@[simp] theorem State.drawRand_fault (s : State) : (s.drawRand).fault = s.fault := rfl
@[simp] theorem State.drawRand_schedule (s : State) : (s.drawRand).schedule = s.schedule := rfl
@[simp] theorem State.drawRand_randDraws (s : State) : (s.drawRand).randDraws = s.randDraws + 1 := rfl

/-! ### skipIf -/

@[simp] theorem State.skipIf_v (c : Bool) (s : State) : (s.skipIf c).v = s.v := by cases c <;> rfl
@[simp] theorem State.skipIf_i (c : Bool) (s : State) : (s.skipIf c).i = s.i := by cases c <;> rfl
@[simp] theorem State.skipIf_sp (c : Bool) (s : State) : (s.skipIf c).sp = s.sp := by cases c <;> rfl
@[simp] theorem State.skipIf_stack (c : Bool) (s : State) : (s.skipIf c).stack = s.stack := by cases c <;> rfl
@[simp] theorem State.skipIf_dt (c : Bool) (s : State) : (s.skipIf c).dt = s.dt := by cases c <;> rfl
@[simp] theorem State.skipIf_st (c : Bool) (s : State) : (s.skipIf c).st = s.st := by cases c <;> rfl
@[simp] theorem State.skipIf_mem (c : Bool) (s : State) : (s.skipIf c).mem = s.mem := by cases c <;> rfl
@[simp] theorem State.skipIf_fb (c : Bool) (s : State) : (s.skipIf c).fb = s.fb := by cases c <;> rfl
@[simp] theorem State.skipIf_keys (c : Bool) (s : State) : (s.skipIf c).keys = s.keys := by cases c <;> rfl
@[simp] theorem State.skipIf_trace (c : Bool) (s : State) : (s.skipIf c).trace = s.trace := by cases c <;> rfl
@[simp] theorem State.skipIf_strict (c : Bool) (s : State) : (s.skipIf c).strict = s.strict := by cases c <;> rfl
@[simp] theorem State.skipIf_fault (c : Bool) (s : State) : (s.skipIf c).fault = s.fault := by cases c <;> rfl
@[simp] theorem State.skipIf_randDraws (c : Bool) (s : State) : (s.skipIf c).randDraws = s.randDraws := by cases c <;> rfl
@[simp] theorem State.skipIf_schedule (c : Bool) (s : State) : (s.skipIf c).schedule = s.schedule := by cases c <;> rfl
@[simp] theorem State.skipIf_pc (c : Bool) (s : State) :
    (s.skipIf c).pc = if c then s.pc + Config.instrBytes else s.pc := by cases c <;> rfl

/-! ### setResultAndFlag -/

@[simp] theorem State.setResultAndFlag_i (o : Config.FlagOrder) (x : Reg) (r : Byte) (b : Bool) (s : State) :
    (s.setResultAndFlag o x r b).i = s.i := by cases o <;> rfl
@[simp] theorem State.setResultAndFlag_pc (o : Config.FlagOrder) (x : Reg) (r : Byte) (b : Bool) (s : State) :
    (s.setResultAndFlag o x r b).pc = s.pc := by cases o <;> rfl
@[simp] theorem State.setResultAndFlag_sp (o : Config.FlagOrder) (x : Reg) (r : Byte) (b : Bool) (s : State) :
    (s.setResultAndFlag o x r b).sp = s.sp := by cases o <;> rfl
@[simp] theorem State.setResultAndFlag_stack (o : Config.FlagOrder) (x : Reg) (r : Byte) (b : Bool) (s : State) :
    (s.setResultAndFlag o x r b).stack = s.stack := by cases o <;> rfl
@[simp] theorem State.setResultAndFlag_dt (o : Config.FlagOrder) (x : Reg) (r : Byte) (b : Bool) (s : State) :
    (s.setResultAndFlag o x r b).dt = s.dt := by cases o <;> rfl
@[simp] theorem State.setResultAndFlag_st (o : Config.FlagOrder) (x : Reg) (r : Byte) (b : Bool) (s : State) :
    (s.setResultAndFlag o x r b).st = s.st := by cases o <;> rfl
@[simp] theorem State.setResultAndFlag_mem (o : Config.FlagOrder) (x : Reg) (r : Byte) (b : Bool) (s : State) :
    (s.setResultAndFlag o x r b).mem = s.mem := by cases o <;> rfl
@[simp] theorem State.setResultAndFlag_fb (o : Config.FlagOrder) (x : Reg) (r : Byte) (b : Bool) (s : State) :
    (s.setResultAndFlag o x r b).fb = s.fb := by cases o <;> rfl
@[simp] theorem State.setResultAndFlag_keys (o : Config.FlagOrder) (x : Reg) (r : Byte) (b : Bool) (s : State) :
    (s.setResultAndFlag o x r b).keys = s.keys := by cases o <;> rfl
@[simp] theorem State.setResultAndFlag_trace (o : Config.FlagOrder) (x : Reg) (r : Byte) (b : Bool) (s : State) :
    (s.setResultAndFlag o x r b).trace = s.trace := by cases o <;> rfl
@[simp] theorem State.setResultAndFlag_strict (o : Config.FlagOrder) (x : Reg) (r : Byte) (b : Bool) (s : State) :
    (s.setResultAndFlag o x r b).strict = s.strict := by cases o <;> rfl
@[simp] theorem State.setResultAndFlag_fault (o : Config.FlagOrder) (x : Reg) (r : Byte) (b : Bool) (s : State) :
    (s.setResultAndFlag o x r b).fault = s.fault := by cases o <;> rfl
@[simp] theorem State.setResultAndFlag_randDraws (o : Config.FlagOrder) (x : Reg) (r : Byte) (b : Bool) (s : State) :
    (s.setResultAndFlag o x r b).randDraws = s.randDraws := by cases o <;> rfl
@[simp] theorem State.setResultAndFlag_schedule (o : Config.FlagOrder) (x : Reg) (r : Byte) (b : Bool) (s : State) :
    (s.setResultAndFlag o x r b).schedule = s.schedule := by cases o <;> rfl

/-! ### issue -/

@[simp] theorem State.issue_v (s : State) : s.issue.v = s.v := rfl
@[simp] theorem State.issue_i (s : State) : s.issue.i = s.i := rfl
@[simp] theorem State.issue_pc (s : State) : s.issue.pc = s.pc := rfl
@[simp] theorem State.issue_sp (s : State) : s.issue.sp = s.sp := rfl
@[simp] theorem State.issue_stack (s : State) : s.issue.stack = s.stack := rfl
@[simp] theorem State.issue_dt (s : State) : s.issue.dt = s.dt := rfl
@[simp] theorem State.issue_st (s : State) : s.issue.st = s.st := rfl
@[simp] theorem State.issue_mem (s : State) : s.issue.mem = s.mem := rfl
@[simp] theorem State.issue_fb (s : State) : s.issue.fb = s.fb := rfl
@[simp] theorem State.issue_keys (s : State) : s.issue.keys = s.keys := rfl
@[simp] theorem State.issue_trace (s : State) : s.issue.trace = s.trace := rfl
@[simp] theorem State.issue_strict (s : State) : s.issue.strict = s.strict := rfl
@[simp] theorem State.issue_fault (s : State) : s.issue.fault = s.fault := rfl
@[simp] theorem State.issue_randDraws (s : State) : s.issue.randDraws = s.randDraws := rfl
@[simp] theorem State.issue_schedule (s : State) : s.issue.schedule = s.schedule.rest := rfl

/-! ### The commands -/

@[simp] theorem setKeysCommand_v (k : Keys) (s : State) : (setKeysCommand k s).v = s.v := by
  unfold setKeysCommand; split <;> rfl
@[simp] theorem setKeysCommand_i (k : Keys) (s : State) : (setKeysCommand k s).i = s.i := by
  unfold setKeysCommand; split <;> rfl
@[simp] theorem setKeysCommand_pc (k : Keys) (s : State) : (setKeysCommand k s).pc = s.pc := by
  unfold setKeysCommand; split <;> rfl
@[simp] theorem setKeysCommand_sp (k : Keys) (s : State) : (setKeysCommand k s).sp = s.sp := by
  unfold setKeysCommand; split <;> rfl
@[simp] theorem setKeysCommand_stack (k : Keys) (s : State) : (setKeysCommand k s).stack = s.stack := by
  unfold setKeysCommand; split <;> rfl
@[simp] theorem setKeysCommand_dt (k : Keys) (s : State) : (setKeysCommand k s).dt = s.dt := by
  unfold setKeysCommand; split <;> rfl
@[simp] theorem setKeysCommand_st (k : Keys) (s : State) : (setKeysCommand k s).st = s.st := by
  unfold setKeysCommand; split <;> rfl
@[simp] theorem setKeysCommand_mem (k : Keys) (s : State) : (setKeysCommand k s).mem = s.mem := by
  unfold setKeysCommand; split <;> rfl
@[simp] theorem setKeysCommand_fb (k : Keys) (s : State) : (setKeysCommand k s).fb = s.fb := by
  unfold setKeysCommand; split <;> rfl
@[simp] theorem setKeysCommand_trace (k : Keys) (s : State) : (setKeysCommand k s).trace = s.trace := by
  unfold setKeysCommand; split <;> rfl
@[simp] theorem setKeysCommand_strict (k : Keys) (s : State) : (setKeysCommand k s).strict = s.strict := by
  unfold setKeysCommand; split <;> rfl
@[simp] theorem setKeysCommand_fault (k : Keys) (s : State) : (setKeysCommand k s).fault = s.fault := by
  unfold setKeysCommand; split <;> rfl
@[simp] theorem setKeysCommand_randDraws (k : Keys) (s : State) : (setKeysCommand k s).randDraws = s.randDraws := by
  unfold setKeysCommand; split <;> rfl
@[simp] theorem setKeysCommand_schedule (k : Keys) (s : State) : (setKeysCommand k s).schedule = s.schedule := by
  unfold setKeysCommand; split <;> rfl
@[simp] theorem tickCommand_v (s : State) : (tickCommand s).v = s.v := by
  unfold tickCommand; split <;> rfl
@[simp] theorem tickCommand_i (s : State) : (tickCommand s).i = s.i := by
  unfold tickCommand; split <;> rfl
@[simp] theorem tickCommand_pc (s : State) : (tickCommand s).pc = s.pc := by
  unfold tickCommand; split <;> rfl
@[simp] theorem tickCommand_sp (s : State) : (tickCommand s).sp = s.sp := by
  unfold tickCommand; split <;> rfl
@[simp] theorem tickCommand_stack (s : State) : (tickCommand s).stack = s.stack := by
  unfold tickCommand; split <;> rfl
@[simp] theorem tickCommand_mem (s : State) : (tickCommand s).mem = s.mem := by
  unfold tickCommand; split <;> rfl
@[simp] theorem tickCommand_fb (s : State) : (tickCommand s).fb = s.fb := by
  unfold tickCommand; split <;> rfl
@[simp] theorem tickCommand_keys (s : State) : (tickCommand s).keys = s.keys := by
  unfold tickCommand; split <;> rfl
@[simp] theorem tickCommand_trace (s : State) : (tickCommand s).trace = s.trace := by
  unfold tickCommand; split <;> rfl
@[simp] theorem tickCommand_strict (s : State) : (tickCommand s).strict = s.strict := by
  unfold tickCommand; split <;> rfl
@[simp] theorem tickCommand_fault (s : State) : (tickCommand s).fault = s.fault := by
  unfold tickCommand; split <;> rfl
@[simp] theorem tickCommand_randDraws (s : State) : (tickCommand s).randDraws = s.randDraws := by
  unfold tickCommand; split <;> rfl
@[simp] theorem tickCommand_schedule (s : State) : (tickCommand s).schedule = s.schedule := by
  unfold tickCommand; split <;> rfl
@[simp] theorem loadCommand_v (b : List Byte) (s : State) : (loadCommand b s).v = s.v := by
  unfold loadCommand; split <;> rfl
@[simp] theorem loadCommand_i (b : List Byte) (s : State) : (loadCommand b s).i = s.i := by
  unfold loadCommand; split <;> rfl
@[simp] theorem loadCommand_pc (b : List Byte) (s : State) : (loadCommand b s).pc = s.pc := by
  unfold loadCommand; split <;> rfl
@[simp] theorem loadCommand_sp (b : List Byte) (s : State) : (loadCommand b s).sp = s.sp := by
  unfold loadCommand; split <;> rfl
@[simp] theorem loadCommand_stack (b : List Byte) (s : State) : (loadCommand b s).stack = s.stack := by
  unfold loadCommand; split <;> rfl
@[simp] theorem loadCommand_dt (b : List Byte) (s : State) : (loadCommand b s).dt = s.dt := by
  unfold loadCommand; split <;> rfl
@[simp] theorem loadCommand_st (b : List Byte) (s : State) : (loadCommand b s).st = s.st := by
  unfold loadCommand; split <;> rfl
@[simp] theorem loadCommand_fb (b : List Byte) (s : State) : (loadCommand b s).fb = s.fb := by
  unfold loadCommand; split <;> rfl
@[simp] theorem loadCommand_keys (b : List Byte) (s : State) : (loadCommand b s).keys = s.keys := by
  unfold loadCommand; split <;> rfl
@[simp] theorem loadCommand_trace (b : List Byte) (s : State) : (loadCommand b s).trace = s.trace := by
  unfold loadCommand; split <;> rfl
@[simp] theorem loadCommand_strict (b : List Byte) (s : State) : (loadCommand b s).strict = s.strict := by
  unfold loadCommand; split <;> rfl
@[simp] theorem loadCommand_fault (b : List Byte) (s : State) : (loadCommand b s).fault = s.fault := by
  unfold loadCommand; split <;> rfl
@[simp] theorem loadCommand_randDraws (b : List Byte) (s : State) : (loadCommand b s).randDraws = s.randDraws := by
  unfold loadCommand; split <;> rfl
@[simp] theorem loadCommand_schedule (b : List Byte) (s : State) : (loadCommand b s).schedule = s.schedule := by
  unfold loadCommand; split <;> rfl

end Sys2Proof.Machine
end

