-- ==== Sys2Proof/Laws/Memory.lean ====
section
/-! SUPPORT. Memory: a write is read back at its address and nowhere else, and every operation keeps the canonical
form. -/

namespace Sys2Proof.Machine

open Sys2Proof

@[simp] theorem Memory.read_nil (a : Nat) : Memory.read [] a = Memory.unlisted a := rfl

theorem Memory.read_cons (b : Nat) (u : Byte) (m : Memory) (a : Nat) :
    Memory.read ((b, u) :: m) a = if a = b then u else Memory.read m a := rfl

theorem Memory.wf_nil : Memory.wf [] := ⟨List.Pairwise.nil, by simp⟩

theorem Memory.wf_tail {c : Host.Cell} {m : Memory} (h : Memory.wf (c :: m)) : Memory.wf m :=
  ⟨(List.pairwise_cons.1 h.1).2, fun d hd => h.2 d (List.mem_cons_of_mem _ hd)⟩

theorem Memory.wf_head_lt {c : Host.Cell} {m : Memory} (h : Memory.wf (c :: m)) : ∀ d ∈ m, c.1 < d.1 :=
  (List.pairwise_cons.1 h.1).1

/-- An address that no cell has reads as unlisted. -/
theorem Memory.read_of_not_listed {m : Memory} {a : Nat} (h : ∀ c ∈ m, c.1 ≠ a) :
    Memory.read m a = Memory.unlisted a := by
  induction m with
  | nil => rfl
  | cons c m ih =>
    rw [Memory.read_cons, if_neg (fun e => h c (by simp) e.symm)]
    exact ih fun d hd => h d (List.mem_cons_of_mem _ hd)

/-- Below the first cell of a canonical memory everything is unlisted. -/
theorem Memory.read_below {c : Host.Cell} {m : Memory} {a : Nat} (h : Memory.wf (c :: m)) (ha : a < c.1) :
    Memory.read (c :: m) a = Memory.unlisted a :=
  Memory.read_of_not_listed fun d hd => by
    rcases List.mem_cons.1 hd with rfl | hd
    · omega
    · have := Memory.wf_head_lt h d hd
      omega

theorem Memory.read_put {m : Memory} {a : Nat} {x : Byte} (h : ∀ c ∈ m, c.1 ≠ a) (b : Nat) :
    Memory.read (Memory.put a x m) b = if b = a then x else Memory.read m b := by
  unfold Memory.put
  split
  · next hx =>
    split
    · next hb => rw [hb, Memory.read_of_not_listed h, hx]
    · rfl
  · rfl

/-- READ AFTER WRITE: the written address reads the written byte, every other address reads as before. -/
theorem Memory.read_write {m : Memory} (h : Memory.wf m) (a : Nat) (x : Byte) (b : Nat) :
    Memory.read (Memory.write m a x) b = if b = a then x else Memory.read m b := by
  induction m with
  | nil => exact Memory.read_put (by simp) b
  | cons c m ih =>
    obtain ⟨d, u⟩ := c
    have hlt := Memory.wf_head_lt h
    unfold Memory.write
    split
    · next had =>
      refine Memory.read_put (fun e he => ?_) b
      rcases List.mem_cons.1 he with rfl | he
      · exact fun e => by simp only at e; omega
      · have := hlt e he
        simp only at this
        omega
    · split
      · next had =>
        subst had
        rw [Memory.read_put (fun e he => by have := hlt e he; simp only at this; omega), Memory.read_cons]
        split <;> rfl
      · next hne =>
        rw [Memory.read_cons, Memory.read_cons, ih (Memory.wf_tail h)]
        split
        · next hb => rw [if_neg (by omega)]
        · rfl

theorem Memory.wf_put {m : Memory} {a : Nat} (x : Byte) (h : Memory.wf m) (ha : a < Config.memSize)
    (hlt : ∀ c ∈ m, a < c.1) : Memory.wf (Memory.put a x m) := by
  unfold Memory.put
  split
  · exact h
  · next hx =>
    refine ⟨List.pairwise_cons.2 ⟨hlt, h.1⟩, fun c hc => ?_⟩
    rcases List.mem_cons.1 hc with rfl | hc
    · exact ⟨ha, hx⟩
    · exact h.2 c hc

/-- A cell of a written memory was there before or is the written one. -/
theorem Memory.mem_write {m : Memory} {a : Nat} {x : Byte} {c : Host.Cell} (h : c ∈ Memory.write m a x) :
    c ∈ m ∨ c.1 = a := by
  induction m with
  | nil =>
    simp only [Memory.write, Memory.put] at h
    split at h <;> simp_all
  | cons d m ih =>
    obtain ⟨b, u⟩ := d
    simp only [Memory.write, Memory.put] at h
    split at h
    · split at h
      · exact .inl h
      · rcases List.mem_cons.1 h with rfl | h
        · exact .inr rfl
        · exact .inl h
    · split at h
      · split at h
        · exact .inl (List.mem_cons_of_mem _ h)
        · rcases List.mem_cons.1 h with rfl | h
          · exact .inr rfl
          · exact .inl (List.mem_cons_of_mem _ h)
      · rcases List.mem_cons.1 h with rfl | h
        · exact .inl (by simp)
        · exact (ih h).imp (List.mem_cons_of_mem _) id

/-- A write keeps the canonical form. -/
theorem Memory.wf_write {m : Memory} (h : Memory.wf m) {a : Nat} (ha : a < Config.memSize) (x : Byte) :
    Memory.wf (Memory.write m a x) := by
  induction m with
  | nil => exact Memory.wf_put x Memory.wf_nil ha (by simp)
  | cons c m ih =>
    obtain ⟨b, u⟩ := c
    have hlt := Memory.wf_head_lt h
    simp only at hlt
    unfold Memory.write
    split
    · next hab =>
      refine Memory.wf_put x h ha fun d hd => ?_
      rcases List.mem_cons.1 hd with rfl | hd
      · exact hab
      · have := hlt d hd
        omega
    · split
      · next hab =>
        subst hab
        exact Memory.wf_put x (Memory.wf_tail h) ha hlt
      · next hab =>
        have hw := ih (Memory.wf_tail h)
        refine ⟨List.pairwise_cons.2 ⟨fun d hd => ?_, hw.1⟩, fun d hd => ?_⟩
        · rcases Memory.mem_write hd with hd | hd
          · exact hlt d hd
          · show b < d.1
            omega
        · rcases List.mem_cons.1 hd with rfl | hd
          · exact h.2 _ (by simp)
          · exact hw.2 d hd

/-- Writing a list of bytes keeps the canonical form. -/
theorem Memory.wf_writeBytes {m : Memory} (h : Memory.wf m) {base : Nat} {bs : List Byte}
    (hb : base + bs.length ≤ Config.memSize) : Memory.wf (Memory.writeBytes m base bs) := by
  induction bs generalizing m base with
  | nil => exact h
  | cons x xs ih =>
    simp only [List.length_cons] at hb
    exact ih (Memory.wf_write h (by omega) x) (by omega)

/-- What a list of bytes written from `base` leaves: its own bytes in its range, every other byte as before. -/
theorem Memory.read_writeBytes {m : Memory} (h : Memory.wf m) {base : Nat} {bs : List Byte}
    (hb : base + bs.length ≤ Config.memSize) (a : Nat) :
    Memory.read (Memory.writeBytes m base bs) a =
      if base ≤ a ∧ a < base + bs.length then bs.getD (a - base) 0 else Memory.read m a := by
  induction bs generalizing m base with
  | nil => simp only [Memory.writeBytes, List.length_nil]; rw [if_neg (by omega)]
  | cons x xs ih =>
    simp only [List.length_cons] at hb ⊢
    rw [Memory.writeBytes, ih (Memory.wf_write h (by omega) x) (by omega), Memory.read_write h]
    by_cases h1 : a = base
    · subst h1
      rw [if_neg (by omega), if_pos rfl, if_pos (by omega)]
      simp
    · by_cases h2 : base + 1 ≤ a ∧ a < base + 1 + xs.length
      · rw [if_pos h2, if_pos (by omega)]
        obtain ⟨j, hj⟩ : ∃ j, a - base = j + 1 := ⟨a - base - 1, by omega⟩
        have hj' : a - (base + 1) = j := by omega
        rw [hj, hj']
        simp
      · rw [if_neg h2, if_neg h1, if_neg (by omega)]

@[simp] theorem Memory.length_readBytes (m : Memory) (base n : Nat) : (Memory.readBytes m base n).length = n := by
  simp [Memory.readBytes]

theorem Memory.getElem_readBytes (m : Memory) (base n k : Nat) (h : k < (Memory.readBytes m base n).length) :
    (Memory.readBytes m base n)[k] = Memory.read m (base + k) := by
  simp [Memory.readBytes]

/-- Memory after RESET reads as the initial contents. -/
theorem Memory.wf_reset : Memory.wf State.reset.mem := Memory.wf_nil

end Sys2Proof.Machine
end

