-- ==== Sys2Proof/Laws/Ops.lean ====
section
/-! SUPPORT. One lemma per shared operation over registers, ranges, keys and flags, saying everything it can do. -/

namespace Sys2Proof.Machine

open Sys2Proof

/-! ## Registers -/

/-- A register written is read back there and nowhere else. -/
theorem State.reg_setReg (s : State) (x : Reg) (b : Byte) (k : Reg) :
    (s.setReg x b).reg k = if k = x then b else s.reg k := by
  unfold State.reg State.setReg
  by_cases h : k = x
  · subst h; simp
  · have : x.val ≠ k.val := fun e => h (Fin.ext e.symm)
    simp [this, h]

@[simp] theorem State.reg_setReg_self (s : State) (x : Reg) (b : Byte) : (s.setReg x b).reg x = b := by
  rw [State.reg_setReg, if_pos rfl]

theorem State.reg_setReg_ne {x k : Reg} (h : k ≠ x) (s : State) (b : Byte) : (s.setReg x b).reg k = s.reg k := by
  rw [State.reg_setReg, if_neg h]

/-- Two states with the same registers read the same registers. -/
theorem State.reg_congr {s t : State} (h : t.v = s.v) (k : Reg) : t.reg k = s.reg k := by
  unfold State.reg; rw [h]

@[simp] theorem State.reg_advance (s : State) (k : Reg) : s.advance.reg k = s.reg k := rfl
@[simp] theorem State.reg_rewind (s : State) (k : Reg) : s.rewind.reg k = s.reg k := rfl
@[simp] theorem State.reg_jump (s : State) (a : Word) (k : Reg) : (s.jump a).reg k = s.reg k := rfl
@[simp] theorem State.reg_push (s : State) (h : s.sp.val < 16) (k : Reg) : (s.push h).reg k = s.reg k := rfl
@[simp] theorem State.reg_pop (s : State) (h : s.sp.val ≠ 0) (k : Reg) : (s.pop h).reg k = s.reg k := rfl
@[simp] theorem State.reg_drawRand (s : State) (k : Reg) : s.drawRand.reg k = s.reg k := rfl
@[simp] theorem State.reg_raise (s : State) (c : FaultCause) (p w : Word) (n : BitVec 17) (k : Reg) :
    (s.raise c p w n).reg k = s.reg k := rfl
@[simp] theorem State.reg_skipIf (c : Bool) (s : State) (k : Reg) : (s.skipIf c).reg k = s.reg k := by
  cases c <;> rfl

/-- The result and the flag, flag last: `VF` is the flag; the destination, if it is not `VF`, is the result. -/
theorem State.reg_setResultAndFlag (s : State) (x : Reg) (r : Byte) (f : Bool) (k : Reg) :
    (s.setResultAndFlag .flagLast x r f).reg k =
      if k = Config.flagReg then flagByte f else if k = x then r else s.reg k := by
  simp only [State.setResultAndFlag, State.reg_setReg]

/-- The other order: the destination is the result; `VF`, if it is not the destination, is the flag. -/
theorem State.reg_setResultAndFlag_resultLast (s : State) (x : Reg) (r : Byte) (f : Bool) (k : Reg) :
    (s.setResultAndFlag .resultLast x r f).reg k =
      if k = x then r else if k = Config.flagReg then flagByte f else s.reg k := by
  simp only [State.setResultAndFlag, State.reg_setReg]

/-- The bulk load writes registers 0 to x from memory and no other. -/
theorem State.reg_loadRegs (s : State) (base : Nat) (x k : Reg) :
    (s.loadRegs base x).reg k = if k ≤ x then s.mem.read (base + k.val) else s.reg k := by
  unfold State.reg State.loadRegs
  simp

@[simp] theorem State.length_regsUpTo (s : State) (x : Reg) : (s.regsUpTo x).length = x.val + 1 := by
  have := x.isLt
  simp [State.regsUpTo]

theorem State.getD_regsUpTo (s : State) (x k : Reg) (h : k ≤ x) : (s.regsUpTo x).getD k.val 0 = s.reg k := by
  have hk : k.val < x.val + 1 := Nat.lt_succ_of_le h
  have hk' : k.val < (s.regsUpTo x).length := by rw [State.length_regsUpTo]; exact hk
  rw [List.getD_eq_getElem _ _ hk']
  simp [State.regsUpTo]

/-! ## Flags -/

@[simp] theorem flagByte_true : flagByte true = 1 := rfl
@[simp] theorem flagByte_false : flagByte false = 0 := rfl

theorem flagByte_toNat (b : Bool) : (flagByte b).toNat = if b then 1 else 0 := by cases b <;> rfl

/-! ## Ranges -/

/-- Exactly the counts that fit (or are 0) pass the range check. -/
theorem firstOutside_eq_none {base : Word} {count : Nat} :
    firstOutside base count = none ↔ (count = 0 ∨ base.toNat + count ≤ 4096) := by
  unfold firstOutside Config.memSize
  split
  · simp only [reduceCtorEq, false_iff]; omega
  · simp only [true_iff]; omega

/-- A range that does not fit gives its lowest address outside memory. -/
theorem firstOutside_eq_some {base : Word} {count : Nat} (h0 : 0 < count) (h : 4096 < base.toNat + count) :
    firstOutside base count = some (BitVec.ofNat 17 (max base.toNat 4096)) := by
  unfold firstOutside Config.memSize
  rw [if_pos ⟨h0, h⟩]

theorem withRange_fits {i : Instr} {count : Nat} {s t : State} (h : count = 0 ∨ s.i.toNat + count ≤ 4096) :
    withRange i count s t = .next t := by
  unfold withRange
  rw [firstOutside_eq_none.2 h]

theorem withRange_outside {i : Instr} {count : Nat} {s t : State} (h0 : 0 < count) (h : 4096 < s.i.toNat + count) :
    withRange i count s t = raiseIn i .addressFault (BitVec.ofNat 17 (max s.i.toNat 4096)) s := by
  unfold withRange
  rw [firstOutside_eq_some h0 h]

/-- The range check either goes on or takes an address fault. -/
theorem withRange_cases (i : Instr) (count : Nat) (s t : State) :
    ((count = 0 ∨ s.i.toNat + count ≤ 4096) ∧ withRange i count s t = .next t) ∨
    (0 < count ∧ 4096 < s.i.toNat + count ∧
      withRange i count s t = .next (s.raise .addressFault s.pc0 (encode i) (BitVec.ofNat 17 (max s.i.toNat 4096)))) := by
  by_cases h : count = 0 ∨ s.i.toNat + count ≤ 4096
  · exact .inl ⟨h, withRange_fits h⟩
  · exact .inr ⟨by omega, by omega, withRange_outside (by omega) (by omega)⟩

/-! ## Keys -/

theorem keyOf_eq_some {b : Byte} (h : b.toNat < 16) : keyOf b = some ⟨b.toNat, h⟩ := by
  unfold keyOf; rw [dif_pos h]

theorem keyOf_eq_none {b : Byte} (h : 15 < b.toNat) : keyOf b = none := by
  unfold keyOf; rw [dif_neg (by omega)]

/-- The key skips either skip on the key's state or take a key fault. -/
theorem skipOnKey_cases (i : Instr) (wanted : Bool) (b : Byte) (s : State) :
    (∃ h : b.toNat < 16, skipOnKey i wanted b s = .next (s.skipIf (s.keys[b.toNat] == wanted))) ∨
    (15 < b.toNat ∧ skipOnKey i wanted b s = .next (s.raise .keyIndexFault s.pc0 (encode i) (b.setWidth 17))) := by
  by_cases h : b.toNat < 16
  · refine .inl ⟨h, ?_⟩
    unfold skipOnKey
    rw [keyOf_eq_some h]
    rfl
  · refine .inr ⟨by omega, ?_⟩
    unfold skipOnKey
    rw [keyOf_eq_none (by omega)]
    rfl

/-- No key is picked exactly when every key is up. -/
theorem pickKey_eq_none {keys : Keys} : pickKey keys = none ↔ ∀ k : Reg, keys[k] = false := by
  unfold pickKey
  simp [List.find?_eq_none]

/-- The picked key is down. -/
theorem pickKey_down {keys : Keys} {k : Reg} (h : pickKey keys = some k) : keys[k] = true := by
  unfold pickKey at h
  simpa using List.find?_some h

/-- The picked key is the lowest that is down. -/
theorem pickKey_lowest {keys : Keys} {k j : Reg} (h : pickKey keys = some k) (hj : j < k) : keys[j] = false := by
  unfold pickKey at h
  obtain ⟨-, n, hn, hget, hbefore⟩ := List.find?_eq_some_iff_getElem.1 h
  have hnk : n = k.val := by
    have := congrArg Fin.val hget
    simpa using this
  have hjk : j.val < k.val := hj
  have := hbefore j.val (by omega)
  simpa using this

end Sys2Proof.Machine
end

