-- ==== Sys2Proof/Laws/Exec.lean ====
section
/-! SUPPORT. The cycle and the commands: what a turn of the machine can do, said once. -/

namespace Sys2Proof.Machine

open Sys2Proof

theorem State.halted_eq_false {s : State} : s.halted = false ↔ s.fault.cause = .none := by
  simp [State.halted]

theorem State.halted_eq_true {s : State} : s.halted = true ↔ s.fault.cause ≠ .none := by
  simp [State.halted]

/-- The fetch of a `PC` in memory. -/
theorem fetch_word {s : State} (h : s.pc.toNat + 1 ≤ 0xFFF) : fetch s = .word (s.mem.readWord s.pc.toNat) := by
  unfold fetch
  rw [firstOutside_eq_none.2 (.inr (by omega))]

/-- The fetch of a `PC` outside memory. -/
theorem fetch_outside {s : State} (h : 0xFFF < s.pc.toNat + 1) :
    fetch s = .outside (BitVec.ofNat 17 (max s.pc.toNat 4096)) := by
  unfold fetch
  rw [firstOutside_eq_some (by omega) (by omega)]

/-- WHAT A STEP COMMAND DOES: nothing on a halted block, a fetch fault, or the execution of the fetched word after the
advance. -/
theorem stepCommand_cases (s : State) :
    (s.fault.cause ≠ .none ∧ stepCommand s = .next s) ∨
    (s.fault.cause = .none ∧ 0xFFF < s.pc.toNat + 1 ∧
      stepCommand s = .next (s.raise .addressFault s.pc 0 (BitVec.ofNat 17 (max s.pc.toNat 4096)))) ∨
    (s.fault.cause = .none ∧ s.pc.toNat + 1 ≤ 0xFFF ∧
      stepCommand s = execWord (s.mem.readWord s.pc.toNat) s.advance) := by
  unfold stepCommand
  by_cases hh : s.fault.cause = .none
  · rw [State.halted_eq_false.2 hh]
    by_cases hp : s.pc.toNat + 1 ≤ 0xFFF
    · exact .inr (.inr ⟨hh, hp, by rw [fetch_word hp]; rfl⟩)
    · exact .inr (.inl ⟨hh, by omega, by rw [fetch_outside (by omega)]; rfl⟩)
  · exact .inl ⟨hh, by rw [State.halted_eq_true.2 hh]; rfl⟩

/-- WHAT AN UNRECOGNISED WORD DOES. -/
theorem unknownWord_cases (w : Word) (s : State) :
    (s.strict = true ∧ unknownWord w s = .next (s.raise .unknownInstruction s.pc0 w 0)) ∨
    (s.strict = false ∧ unknownWord w s = .next s) := by
  unfold unknownWord
  cases s.strict
  · exact .inr ⟨rfl, rfl⟩
  · exact .inl ⟨rfl, rfl⟩

/-! ## The host's schedule -/

@[simp] theorem Schedule.next_cons (c : Command) (cs : List Command) (l : Later) :
    ({ pending := c :: cs, later := l } : Schedule).next = c := rfl
@[simp] theorem Schedule.rest_cons (c : Command) (cs : List Command) (l : Later) :
    ({ pending := c :: cs, later := l } : Schedule).rest = { pending := cs, later := l } := rfl
@[simp] theorem Schedule.next_free (n : Nat) :
    ({ pending := [], later := .free n } : Schedule).next = Config.hostCommand n := rfl
@[simp] theorem Schedule.rest_free (n : Nat) :
    ({ pending := [], later := .free n } : Schedule).rest = { pending := [], later := .free (n + 1) } := rfl
@[simp] theorem Schedule.next_stepsOnly : Schedule.stepsOnly.next = .step := rfl
@[simp] theorem Schedule.rest_stepsOnly : Schedule.stepsOnly.rest = Schedule.stepsOnly := rfl
@[simp] theorem Schedule.take_zero (h : Schedule) : h.take 0 = [] := rfl
@[simp] theorem Schedule.take_succ (n : Nat) (h : Schedule) : h.take (n + 1) = h.next :: h.rest.take n := rfl
@[simp] theorem Schedule.drop_zero (h : Schedule) : h.drop 0 = h := rfl
@[simp] theorem Schedule.drop_succ (n : Nat) (h : Schedule) : h.drop (n + 1) = h.rest.drop n := rfl

theorem Schedule.length_take (n : Nat) (h : Schedule) : (h.take n).length = n := by
  induction n generalizing h with
  | zero => rfl
  | succ n ih => rw [Schedule.take_succ, List.length_cons, ih]

/-- A schedule that lists `cs` first issues them first, whatever it holds after them. -/
theorem Schedule.take_append (cs ds : List Command) (l : Later) :
    Schedule.take cs.length { pending := cs ++ ds, later := l } = cs := by
  induction cs with
  | nil => rfl
  | cons c cs ih => exact congrArg (c :: ·) ih

theorem Schedule.drop_append (cs ds : List Command) (l : Later) :
    Schedule.drop cs.length { pending := cs ++ ds, later := l } = { pending := ds, later := l } := by
  induction cs with
  | nil => rfl
  | cons c cs ih => exact ih

/-- A host that is free issues, one after the other, the commands it chooses. -/
theorem Schedule.take_free (n m : Nat) :
    Schedule.take n { pending := [], later := .free m } =
      (List.range n).map fun k => Config.hostCommand (m + k) := by
  induction n generalizing m with
  | zero => rfl
  | succ n ih =>
    rw [Schedule.take_succ, Schedule.rest_free, ih, List.range_succ_eq_map]
    simp [Nat.add_assoc, Nat.add_comm 1]

/-- WHAT A TURN DOES: the command the host issues next, on the state whose schedule has moved on. -/
theorem step_eq (s : State) : step s = runCommand s.nextCommand s.issue := rfl

/-- A turn in which the host issues STEP. -/
theorem step_of_next_step {s : State} (h : s.nextCommand = .step) : step s = stepCommand s.issue := by
  rw [step_eq, h]
  rfl

/-- The commands other than STEP leave the host's schedule where it is. -/
theorem runCommand_keeps_schedule {c : Command} {s t : State} (hc : c ≠ .step) (h : runCommand c s = .next t) :
    t.schedule = s.schedule := by
  cases c with
  | step => exact absurd rfl hc
  | reset trace strict => cases h; rfl
  | load bytes => cases h; exact loadCommand_schedule bytes s
  | setKeys keys => cases h; exact setKeysCommand_schedule keys s
  | tick => cases h; exact tickCommand_schedule s

/-- The fetch place is fetchable. -/
theorem State.fetchPlace_le (s : State) : s.fetchPlace.toNat + 1 ≤ 0xFFF := by
  unfold State.fetchPlace
  split
  · next h =>
    rcases firstOutside_eq_none.1 h with h | h <;> omega
  · decide

end Sys2Proof.Machine
end

