-- ==== Sys2Proof/Laws/Frame.lean ====
section
/-! SUPPORT. The frame of each shared operation, and how frames combine. -/

namespace Sys2Proof.Machine

open Sys2Proof

theorem OnlyChanges.refl (regs : List Reg) (parts : List Part) (s : State) : OnlyChanges regs parts s s :=
  ⟨fun _ _ => rfl, fun p _ => by cases p <;> simp [Part.same]⟩

/-- A frame may be widened. -/
theorem OnlyChanges.mono {regs regs' : List Reg} {parts parts' : List Part} {s t : State}
    (h : OnlyChanges regs parts s t) (hr : regs ⊆ regs') (hp : parts ⊆ parts') : OnlyChanges regs' parts' s t :=
  ⟨fun k hk => h.1 k fun hm => hk (hr hm), fun p hn => h.2 p fun hm => hn (hp hm)⟩

theorem Part.same_trans {p : Part} {s t u : State} (h : p.same s t) (h' : p.same t u) : p.same s u := by
  cases p
  case memory => exact fun a => (h' a).trans (h a)
  case config => exact ⟨h'.1.trans h.1, h'.2.trans h.2⟩
  all_goals exact Eq.trans h' h

/-- Two frames one after the other. -/
theorem OnlyChanges.trans {regs regs' : List Reg} {parts parts' : List Part} {s t u : State}
    (h : OnlyChanges regs parts s t) (h' : OnlyChanges regs' parts' t u) :
    OnlyChanges (regs ++ regs') (parts ++ parts') s u :=
  ⟨fun k hk => by
      rw [List.mem_append, not_or] at hk
      exact (h'.1 k hk.2).trans (h.1 k hk.1),
    fun p hp => by
      rw [List.mem_append, not_or] at hp
      exact Part.same_trans (h.2 p hp.1) (h'.2 p hp.2)⟩

/-- A state that differs in one part only, field by field. -/
theorem onlyChanges_part {p : Part} {s t : State} (hv : t.v = s.v) (h : ∀ q, q ≠ p → q.same s t) :
    OnlyChanges [] [p] s t :=
  ⟨fun k _ => State.reg_congr hv k, fun q hq => h q fun e => hq (by simp [e])⟩

theorem onlyChanges_setReg (s : State) (x : Reg) (b : Byte) : OnlyChanges [x] [] s (s.setReg x b) :=
  ⟨fun k hk => State.reg_setReg_ne (by simpa using hk) s b, fun p _ => by cases p <;> simp [Part.same]⟩

theorem onlyChanges_setResultAndFlag (s : State) (x : Reg) (r : Byte) (f : Bool) :
    OnlyChanges [x, Config.flagReg] [] s (s.setResultAndFlag .flagLast x r f) :=
  ⟨fun k hk => by
      simp only [List.mem_cons, List.not_mem_nil, or_false, not_or] at hk
      rw [State.reg_setResultAndFlag, if_neg hk.2, if_neg hk.1],
    fun p _ => by cases p <;> simp [Part.same]⟩

theorem onlyChanges_loadRegs (s : State) (base : Nat) (x : Reg) :
    OnlyChanges ((List.finRange 16).filter (· ≤ x)) [] s (s.loadRegs base x) :=
  ⟨fun k hk => by
      rw [State.reg_loadRegs, if_neg fun h => hk (by simp [List.mem_filter, h])],
    fun p _ => by cases p <;> simp [Part.same]⟩

theorem onlyChanges_advance (s : State) : OnlyChanges [] [.pc] s s.advance :=
  onlyChanges_part rfl fun q hq => by cases q <;> simp_all [Part.same]

theorem onlyChanges_rewind (s : State) : OnlyChanges [] [.pc] s s.rewind :=
  onlyChanges_part rfl fun q hq => by cases q <;> simp_all [Part.same]

theorem onlyChanges_jump (s : State) (a : Word) : OnlyChanges [] [.pc] s (s.jump a) :=
  onlyChanges_part rfl fun q hq => by cases q <;> simp_all [Part.same]

theorem onlyChanges_skipIf (c : Bool) (s : State) : OnlyChanges [] [.pc] s (s.skipIf c) := by
  cases c
  · exact OnlyChanges.refl _ _ s
  · exact onlyChanges_advance s

theorem onlyChanges_raise (s : State) (c : FaultCause) (p w : Word) (n : BitVec 17) :
    OnlyChanges [] [.fault] s (s.raise c p w n) :=
  onlyChanges_part rfl fun q hq => by cases q <;> simp_all [Part.same]

theorem onlyChanges_drawRand (s : State) : OnlyChanges [] [.random] s s.drawRand :=
  onlyChanges_part rfl fun q hq => by cases q <;> simp_all [Part.same]

theorem onlyChanges_push (s : State) (h : s.sp.val < 16) :
    OnlyChanges [] [.stackPointer, .stack] s (s.push h) :=
  ⟨fun _ _ => rfl, fun p hp => by cases p <;> simp_all [Part.same]⟩

theorem onlyChanges_pop (s : State) (h : s.sp.val ≠ 0) : OnlyChanges [] [.pc, .stackPointer] s (s.pop h) :=
  ⟨fun _ _ => rfl, fun p hp => by cases p <;> simp_all [Part.same]⟩

theorem onlyChanges_index (s : State) (a : Word) : OnlyChanges [] [.index] s { s with i := a } :=
  onlyChanges_part rfl fun q hq => by cases q <;> simp_all [Part.same]

theorem onlyChanges_delay (s : State) (b : Byte) : OnlyChanges [] [.delay] s { s with dt := b } :=
  onlyChanges_part rfl fun q hq => by cases q <;> simp_all [Part.same]

theorem onlyChanges_sound (s : State) (b : Byte) : OnlyChanges [] [.sound] s { s with st := b } :=
  onlyChanges_part rfl fun q hq => by cases q <;> simp_all [Part.same]

theorem onlyChanges_memory (s : State) (m : Memory) : OnlyChanges [] [.memory] s { s with mem := m } :=
  onlyChanges_part rfl fun q hq => by cases q <;> simp_all [Part.same]

theorem onlyChanges_pixels (s : State) (f : Pixels) : OnlyChanges [] [.pixels] s { s with fb := f } :=
  onlyChanges_part rfl fun q hq => by cases q <;> simp_all [Part.same]

theorem onlyChanges_keys (s : State) (k : Keys) : OnlyChanges [] [.keys] s { s with keys := k } :=
  onlyChanges_part rfl fun q hq => by cases q <;> simp_all [Part.same]

theorem onlyChanges_schedule (s : State) (h : Schedule) : OnlyChanges [] [.schedule] s { s with schedule := h } :=
  onlyChanges_part rfl fun q hq => by cases q <;> simp_all [Part.same]

end Sys2Proof.Machine
end

