-- ==== Sys2Proof/Laws/PerInstr.lean ====
section
/-! SUPPORT. Statements about every instruction as syntax, one lemma per constructor: the word the encoder gives has
the fixed bits of the instruction's own row of the opcode map (R65, R70). -/

namespace Sys2Proof.Laws.EncodeMatchesRow

open Sys2Proof

/-- The encoded word matches the instruction's own row of R70. -/
def Statement (i : Instr) : Prop := (opcodeTable[i.rowIndex]?).map (·.matchesWord (encode i)) = some true

/-- The statement from the row and its comparison. -/
theorem of_row {i : Instr} (r : OpcodeRow) (hr : opcodeTable[i.rowIndex]? = some r)
    (hm : encode i &&& r.mask = r.pattern) : Statement i := by
  unfold Statement
  rw [hr]
  simp [OpcodeRow.matchesWord, hm]

theorem cls : Statement .cls :=
  of_row ⟨0x00E0, 0xFFFF⟩ rfl rfl

theorem ret : Statement .ret :=
  of_row ⟨0x00EE, 0xFFFF⟩ rfl rfl

theorem jp (nnn : Addr12) : Statement (.jp nnn) := by
  refine of_row ⟨0x1000, 0xF000⟩ rfl ?_
  show formatA 0x1#4 nnn &&& 0xF000#16 = _
  rw [and_mask_op, fieldOp_formatA]
  decide

theorem call (nnn : Addr12) : Statement (.call nnn) := by
  refine of_row ⟨0x2000, 0xF000⟩ rfl ?_
  show formatA 0x2#4 nnn &&& 0xF000#16 = _
  rw [and_mask_op, fieldOp_formatA]
  decide

theorem seByte (x : Reg) (nn : Byte) : Statement (.seByte x nn) := by
  refine of_row ⟨0x3000, 0xF000⟩ rfl ?_
  show formatX 0x3#4 x nn &&& 0xF000#16 = _
  rw [and_mask_op, fieldOp_formatX]
  decide

theorem sneByte (x : Reg) (nn : Byte) : Statement (.sneByte x nn) := by
  refine of_row ⟨0x4000, 0xF000⟩ rfl ?_
  show formatX 0x4#4 x nn &&& 0xF000#16 = _
  rw [and_mask_op, fieldOp_formatX]
  decide

theorem seReg (x y : Reg) : Statement (.seReg x y) := by
  refine of_row ⟨0x5000, 0xF00F⟩ rfl ?_
  show formatXY 0x5#4 x y 0x0#4 &&& 0xF00F#16 = _
  rw [and_mask_op_n, fieldOp_formatXY, fieldN_formatXY]
  decide

theorem ldByte (x : Reg) (nn : Byte) : Statement (.ldByte x nn) := by
  refine of_row ⟨0x6000, 0xF000⟩ rfl ?_
  show formatX 0x6#4 x nn &&& 0xF000#16 = _
  rw [and_mask_op, fieldOp_formatX]
  decide

theorem addByte (x : Reg) (nn : Byte) : Statement (.addByte x nn) := by
  refine of_row ⟨0x7000, 0xF000⟩ rfl ?_
  show formatX 0x7#4 x nn &&& 0xF000#16 = _
  rw [and_mask_op, fieldOp_formatX]
  decide

theorem ldReg (x y : Reg) : Statement (.ldReg x y) := by
  refine of_row ⟨0x8000, 0xF00F⟩ rfl ?_
  show formatXY 0x8#4 x y 0x0#4 &&& 0xF00F#16 = _
  rw [and_mask_op_n, fieldOp_formatXY, fieldN_formatXY]
  decide

theorem orReg (x y : Reg) : Statement (.orReg x y) := by
  refine of_row ⟨0x8001, 0xF00F⟩ rfl ?_
  show formatXY 0x8#4 x y 0x1#4 &&& 0xF00F#16 = _
  rw [and_mask_op_n, fieldOp_formatXY, fieldN_formatXY]
  decide

theorem andReg (x y : Reg) : Statement (.andReg x y) := by
  refine of_row ⟨0x8002, 0xF00F⟩ rfl ?_
  show formatXY 0x8#4 x y 0x2#4 &&& 0xF00F#16 = _
  rw [and_mask_op_n, fieldOp_formatXY, fieldN_formatXY]
  decide

theorem xorReg (x y : Reg) : Statement (.xorReg x y) := by
  refine of_row ⟨0x8003, 0xF00F⟩ rfl ?_
  show formatXY 0x8#4 x y 0x3#4 &&& 0xF00F#16 = _
  rw [and_mask_op_n, fieldOp_formatXY, fieldN_formatXY]
  decide

theorem addReg (x y : Reg) : Statement (.addReg x y) := by
  refine of_row ⟨0x8004, 0xF00F⟩ rfl ?_
  show formatXY 0x8#4 x y 0x4#4 &&& 0xF00F#16 = _
  rw [and_mask_op_n, fieldOp_formatXY, fieldN_formatXY]
  decide

theorem subReg (x y : Reg) : Statement (.subReg x y) := by
  refine of_row ⟨0x8005, 0xF00F⟩ rfl ?_
  show formatXY 0x8#4 x y 0x5#4 &&& 0xF00F#16 = _
  rw [and_mask_op_n, fieldOp_formatXY, fieldN_formatXY]
  decide

theorem shrReg (x y : Reg) : Statement (.shrReg x y) := by
  refine of_row ⟨0x8006, 0xF00F⟩ rfl ?_
  show formatXY 0x8#4 x y 0x6#4 &&& 0xF00F#16 = _
  rw [and_mask_op_n, fieldOp_formatXY, fieldN_formatXY]
  decide

theorem subnReg (x y : Reg) : Statement (.subnReg x y) := by
  refine of_row ⟨0x8007, 0xF00F⟩ rfl ?_
  show formatXY 0x8#4 x y 0x7#4 &&& 0xF00F#16 = _
  rw [and_mask_op_n, fieldOp_formatXY, fieldN_formatXY]
  decide

theorem shlReg (x y : Reg) : Statement (.shlReg x y) := by
  refine of_row ⟨0x800E, 0xF00F⟩ rfl ?_
  show formatXY 0x8#4 x y 0xE#4 &&& 0xF00F#16 = _
  rw [and_mask_op_n, fieldOp_formatXY, fieldN_formatXY]
  decide

theorem sneReg (x y : Reg) : Statement (.sneReg x y) := by
  refine of_row ⟨0x9000, 0xF00F⟩ rfl ?_
  show formatXY 0x9#4 x y 0x0#4 &&& 0xF00F#16 = _
  rw [and_mask_op_n, fieldOp_formatXY, fieldN_formatXY]
  decide

theorem ldI (nnn : Addr12) : Statement (.ldI nnn) := by
  refine of_row ⟨0xA000, 0xF000⟩ rfl ?_
  show formatA 0xA#4 nnn &&& 0xF000#16 = _
  rw [and_mask_op, fieldOp_formatA]
  decide

theorem rnd (x : Reg) (nn : Byte) : Statement (.rnd x nn) := by
  refine of_row ⟨0xC000, 0xF000⟩ rfl ?_
  show formatX 0xC#4 x nn &&& 0xF000#16 = _
  rw [and_mask_op, fieldOp_formatX]
  decide

theorem drw (x y : Reg) (n : Nibble) : Statement (.drw x y n) := by
  refine of_row ⟨0xD000, 0xF000⟩ rfl ?_
  show formatXY 0xD#4 x y n &&& 0xF000#16 = _
  rw [and_mask_op, fieldOp_formatXY]
  decide

theorem skp (x : Reg) : Statement (.skp x) := by
  refine of_row ⟨0xE09E, 0xF0FF⟩ rfl ?_
  show formatX 0xE#4 x 0x9E#8 &&& 0xF0FF#16 = _
  rw [and_mask_op_nn, fieldOp_formatX, fieldNN_formatX]
  decide

theorem sknp (x : Reg) : Statement (.sknp x) := by
  refine of_row ⟨0xE0A1, 0xF0FF⟩ rfl ?_
  show formatX 0xE#4 x 0xA1#8 &&& 0xF0FF#16 = _
  rw [and_mask_op_nn, fieldOp_formatX, fieldNN_formatX]
  decide

theorem ldVxDt (x : Reg) : Statement (.ldVxDt x) := by
  refine of_row ⟨0xF007, 0xF0FF⟩ rfl ?_
  show formatX 0xF#4 x 0x07#8 &&& 0xF0FF#16 = _
  rw [and_mask_op_nn, fieldOp_formatX, fieldNN_formatX]
  decide

theorem ldVxK (x : Reg) : Statement (.ldVxK x) := by
  refine of_row ⟨0xF00A, 0xF0FF⟩ rfl ?_
  show formatX 0xF#4 x 0x0A#8 &&& 0xF0FF#16 = _
  rw [and_mask_op_nn, fieldOp_formatX, fieldNN_formatX]
  decide

theorem ldDtVx (x : Reg) : Statement (.ldDtVx x) := by
  refine of_row ⟨0xF015, 0xF0FF⟩ rfl ?_
  show formatX 0xF#4 x 0x15#8 &&& 0xF0FF#16 = _
  rw [and_mask_op_nn, fieldOp_formatX, fieldNN_formatX]
  decide

theorem ldStVx (x : Reg) : Statement (.ldStVx x) := by
  refine of_row ⟨0xF018, 0xF0FF⟩ rfl ?_
  show formatX 0xF#4 x 0x18#8 &&& 0xF0FF#16 = _
  rw [and_mask_op_nn, fieldOp_formatX, fieldNN_formatX]
  decide

theorem addI (x : Reg) : Statement (.addI x) := by
  refine of_row ⟨0xF01E, 0xF0FF⟩ rfl ?_
  show formatX 0xF#4 x 0x1E#8 &&& 0xF0FF#16 = _
  rw [and_mask_op_nn, fieldOp_formatX, fieldNN_formatX]
  decide

theorem ldF (x : Reg) : Statement (.ldF x) := by
  refine of_row ⟨0xF029, 0xF0FF⟩ rfl ?_
  show formatX 0xF#4 x 0x29#8 &&& 0xF0FF#16 = _
  rw [and_mask_op_nn, fieldOp_formatX, fieldNN_formatX]
  decide

theorem ldB (x : Reg) : Statement (.ldB x) := by
  refine of_row ⟨0xF033, 0xF0FF⟩ rfl ?_
  show formatX 0xF#4 x 0x33#8 &&& 0xF0FF#16 = _
  rw [and_mask_op_nn, fieldOp_formatX, fieldNN_formatX]
  decide

theorem ldMemVx (x : Reg) : Statement (.ldMemVx x) := by
  refine of_row ⟨0xF055, 0xF0FF⟩ rfl ?_
  show formatX 0xF#4 x 0x55#8 &&& 0xF0FF#16 = _
  rw [and_mask_op_nn, fieldOp_formatX, fieldNN_formatX]
  decide

theorem ldVxMem (x : Reg) : Statement (.ldVxMem x) := by
  refine of_row ⟨0xF065, 0xF0FF⟩ rfl ?_
  show formatX 0xF#4 x 0x65#8 &&& 0xF0FF#16 = _
  rw [and_mask_op_nn, fieldOp_formatX, fieldNN_formatX]
  decide

end Sys2Proof.Laws.EncodeMatchesRow
end

