-- ==== Sys2Proof/Laws/Pixels.lean ====
section
/-! SUPPORT. The framebuffer: a pixel written is read back there and nowhere else; what each drawing operation does
to a pixel. -/

namespace Sys2Proof.Machine

open Sys2Proof

theorem Pixels.get_set (f : Pixels) (x x' : Fin 64) (y y' : Fin 32) (b : Bool) :
    Pixels.get (Pixels.set f x y b) x' y' = if x' = x ∧ y' = y then b else Pixels.get f x' y' := by
  unfold Pixels.get Pixels.set
  by_cases hy : y' = y
  · subst hy
    by_cases hx : x' = x
    · subst hx; simp
    · have : x.val ≠ x'.val := fun h => hx (Fin.ext h.symm)
      simp [this, hx]
  · have : y.val ≠ y'.val := fun h => hy (Fin.ext h.symm)
    simp [this, hy]

@[simp] theorem Pixels.get_clear (x : Fin 64) (y : Fin 32) : Pixels.get Pixels.clear x y = false := by
  simp [Pixels.get, Pixels.clear]

/-- Two framebuffers with the same pixels are equal. -/
theorem Pixels.ext_get {f g : Pixels} (h : ∀ x y, Pixels.get f x y = Pixels.get g x y) : f = g := by
  apply Vector.ext
  intro r hr
  apply Vector.ext
  intro c hc
  exact h ⟨c, hc⟩ ⟨r, hr⟩

/-- Toggling changes exactly one pixel. -/
theorem Canvas.toggle_get (c : Canvas) (x x' : Fin 64) (y y' : Fin 32) :
    Pixels.get (Canvas.toggle c x y).1 x' y' =
      if x' = x ∧ y' = y then !Pixels.get c.1 x y else Pixels.get c.1 x' y' :=
  Pixels.get_set _ _ _ _ _ _

theorem Canvas.toggle_hit (c : Canvas) (x : Fin 64) (y : Fin 32) :
    (Canvas.toggle c x y).2 = (c.2 || Pixels.get c.1 x y) := rfl

/-! ## What drawing does to a pixel, in closed form -/

/-- The first `n` bits of a sprite row on line `y` cover a pixel. -/
def rowCovers (b : Byte) (n ox y : Nat) (x' : Fin 64) (y' : Fin 32) : Prop :=
  y'.val = y % 32 ∧ ∃ bit < n, x'.val = (ox + bit) % 64 ∧ b.getLsbD (7 - bit) = true

/-- The rows of a sprite from line `y` cover a pixel. -/
def rowsCover (bs : List Byte) (ox y : Nat) (x' : Fin 64) (y' : Fin 32) : Prop :=
  ∃ row, ∃ h : row < bs.length, rowCovers bs[row] 8 ox (y + row) x' y'

theorem rowCovers_zero (b : Byte) (ox y : Nat) (x' : Fin 64) (y' : Fin 32) : ¬ rowCovers b 0 ox y x' y' := by
  rintro ⟨-, bit, h, -⟩
  omega

theorem rowCovers_succ (b : Byte) (n ox y : Nat) (x' : Fin 64) (y' : Fin 32) :
    rowCovers b (n + 1) ox y x' y' ↔
      rowCovers b n ox y x' y' ∨ (y'.val = y % 32 ∧ x'.val = (ox + n) % 64 ∧ b.getLsbD (7 - n) = true) := by
  constructor
  · rintro ⟨hy, bit, hb, hx, hs⟩
    rcases Nat.lt_succ_iff_lt_or_eq.1 hb with hb | rfl
    · exact .inl ⟨hy, bit, hb, hx, hs⟩
    · exact .inr ⟨hy, hx, hs⟩
  · rintro (⟨hy, bit, hb, hx, hs⟩ | ⟨hy, hx, hs⟩)
    · exact ⟨hy, bit, by omega, hx, hs⟩
    · exact ⟨hy, n, by omega, hx, hs⟩

/-- The bits of one row land on different columns. -/
theorem rowCovers_disjoint {b : Byte} {n ox y : Nat} (hn : n < 8) {x' : Fin 64} {y' : Fin 32}
    (h : rowCovers b n ox y x' y') : ¬ (y'.val = y % 32 ∧ x'.val = (ox + n) % 64 ∧ b.getLsbD (7 - n) = true) := by
  obtain ⟨-, bit, hb, hx, -⟩ := h
  rintro ⟨-, hx', -⟩
  omega

/-- One bit: a 1 bit toggles its pixel and notes a collision if it was 1, a 0 bit does nothing. -/
theorem Canvas.drawBit_get (ox y : Nat) (b : Byte) (c : Canvas) (n : Nat) (x' : Fin 64) (y' : Fin 32) :
    Pixels.get (Canvas.drawBit ox y b c n).1 x' y' =
      (Pixels.get c.1 x' y' ^^
        decide (y'.val = y % 32 ∧ x'.val = (ox + n) % 64 ∧ b.getLsbD (7 - n) = true)) := by
  unfold Canvas.drawBit
  split
  · next hb =>
    rw [Canvas.toggle_get]
    by_cases h : x' = Fin.ofNat 64 (ox + n) ∧ y' = Fin.ofNat 32 y
    · obtain ⟨rfl, rfl⟩ := h
      simp [hb]
    · have h2 : ¬ (y'.val = y % 32 ∧ x'.val = (ox + n) % 64 ∧ b.getLsbD (7 - n) = true) := fun hh =>
        h ⟨Fin.ext hh.2.1, Fin.ext hh.1⟩
      rw [if_neg h, decide_eq_false h2, Bool.xor_false]
  · next hb => simp [hb]

theorem Canvas.drawBit_hit (ox y : Nat) (b : Byte) (c : Canvas) (n : Nat) :
    (Canvas.drawBit ox y b c n).2 =
      (c.2 || (b.getLsbD (7 - n) && Pixels.get c.1 (Fin.ofNat 64 (ox + n)) (Fin.ofNat 32 y))) := by
  unfold Canvas.drawBit
  split
  · next hb => rw [Canvas.toggle_hit, hb, Bool.true_and]
  · next hb => simp [hb]

/-- The first `n` bits of a row: each covered pixel is toggled once, the others stay; a collision is noted exactly
when a covered pixel was 1 before the row. -/
theorem Canvas.drawBits_spec (ox y : Nat) (b : Byte) (c : Canvas) (n : Nat) (hn : n ≤ 8) :
    (∀ x' y', (rowCovers b n ox y x' y' →
        Pixels.get ((List.range n).foldl (Canvas.drawBit ox y b) c).1 x' y' = !Pixels.get c.1 x' y') ∧
      (¬ rowCovers b n ox y x' y' →
        Pixels.get ((List.range n).foldl (Canvas.drawBit ox y b) c).1 x' y' = Pixels.get c.1 x' y')) ∧
    (((List.range n).foldl (Canvas.drawBit ox y b) c).2 = true ↔
      c.2 = true ∨ ∃ x' y', rowCovers b n ox y x' y' ∧ Pixels.get c.1 x' y' = true) := by
  induction n with
  | zero => simp [rowCovers_zero]
  | succ n ih =>
    obtain ⟨ihp, ihh⟩ := ih (by omega)
    rw [List.range_succ, List.foldl_append, List.foldl_cons, List.foldl_nil]
    refine ⟨fun x' y' => ?_, ?_⟩
    · rw [rowCovers_succ, Canvas.drawBit_get]
      by_cases h1 : rowCovers b n ox y x' y'
      · have h2 := rowCovers_disjoint (by omega) h1
        simp [h1, h2, (ihp x' y').1 h1]
      · rw [(ihp x' y').2 h1]
        by_cases h2 : y'.val = y % 32 ∧ x'.val = (ox + n) % 64 ∧ b.getLsbD (7 - n) = true
        · simp [h2]
        · simp only [h1, h2, or_self, false_imp_iff, decide_false, Bool.xor_false, not_false_eq_true, true_imp_iff, and_self]
    · rw [Canvas.drawBit_hit, Bool.or_eq_true, ihh, Bool.and_eq_true]
      constructor
      · rintro ((h | ⟨x', y', h, hg⟩) | ⟨hs, hg⟩)
        · exact .inl h
        · exact .inr ⟨x', y', (rowCovers_succ ..).2 (.inl h), hg⟩
        · refine .inr ⟨Fin.ofNat 64 (ox + n), Fin.ofNat 32 y, (rowCovers_succ ..).2 (.inr ⟨rfl, rfl, hs⟩), ?_⟩
          have hno : ¬ rowCovers b n ox y (Fin.ofNat 64 (ox + n)) (Fin.ofNat 32 y) := fun h =>
            rowCovers_disjoint (by omega) h ⟨rfl, rfl, hs⟩
          rw [(ihp _ _).2 hno] at hg
          exact hg
      · rintro (h | ⟨x', y', h, hg⟩)
        · exact .inl (.inl h)
        · rcases (rowCovers_succ ..).1 h with h1 | ⟨hy, hx, hs⟩
          · exact .inl (.inr ⟨x', y', h1, hg⟩)
          · refine .inr ⟨hs, ?_⟩
            have ex : x' = Fin.ofNat 64 (ox + n) := Fin.ext hx
            have ey : y' = Fin.ofNat 32 y := Fin.ext hy
            have hno : ¬ rowCovers b n ox y x' y' := fun h => rowCovers_disjoint (by omega) h ⟨hy, hx, hs⟩
            rw [← ex, ← ey, (ihp _ _).2 hno]
            exact hg

theorem rowsCover_nil (ox y : Nat) (x' : Fin 64) (y' : Fin 32) : ¬ rowsCover [] ox y x' y' := by
  rintro ⟨row, h, -⟩
  simp at h

theorem rowsCover_cons (b : Byte) (bs : List Byte) (ox y : Nat) (x' : Fin 64) (y' : Fin 32) :
    rowsCover (b :: bs) ox y x' y' ↔ rowCovers b 8 ox y x' y' ∨ rowsCover bs ox (y + 1) x' y' := by
  constructor
  · rintro ⟨row, h, hc⟩
    cases row with
    | zero => exact .inl hc
    | succ row =>
      refine .inr ⟨row, by simpa using h, ?_⟩
      rw [Nat.add_right_comm, Nat.add_assoc]
      exact hc
  · rintro (hc | ⟨row, h, hc⟩)
    · exact ⟨0, by simp, hc⟩
    · refine ⟨row + 1, by simpa using h, ?_⟩
      rw [Nat.add_right_comm, Nat.add_assoc] at hc
      exact hc

/-- Up to 32 rows land on different lines. -/
theorem rowsCover_disjoint {b : Byte} {bs : List Byte} {ox y : Nat} (hn : bs.length < 32) {x' : Fin 64} {y' : Fin 32}
    (h : rowsCover bs ox (y + 1) x' y') : ¬ rowCovers b 8 ox y x' y' := by
  obtain ⟨row, hr, hy, -⟩ := h
  rintro ⟨hy', -⟩
  omega

/-- WHAT DRAWING DOES: each pixel the sprite covers is toggled, the others stay, and a collision is noted exactly when
a covered pixel was 1 before. -/
theorem Canvas.drawRows_spec (ox y : Nat) (bs : List Byte) (c : Canvas) (hn : bs.length ≤ 32) :
    (∀ x' y', (rowsCover bs ox y x' y' →
        Pixels.get (Canvas.drawRows ox y bs c).1 x' y' = !Pixels.get c.1 x' y') ∧
      (¬ rowsCover bs ox y x' y' → Pixels.get (Canvas.drawRows ox y bs c).1 x' y' = Pixels.get c.1 x' y')) ∧
    ((Canvas.drawRows ox y bs c).2 = true ↔
      c.2 = true ∨ ∃ x' y', rowsCover bs ox y x' y' ∧ Pixels.get c.1 x' y' = true) := by
  induction bs generalizing y c with
  | nil => simp [Canvas.drawRows, rowsCover_nil]
  | cons b bs ih =>
    simp only [List.length_cons] at hn
    obtain ⟨rp, rh⟩ := Canvas.drawBits_spec ox y b c 8 (le_refl 8)
    obtain ⟨ip, ih⟩ := ih (y + 1) (Canvas.drawRow ox y b c) (by omega)
    refine ⟨fun x' y' => ?_, ?_⟩
    · rw [rowsCover_cons, Canvas.drawRows]
      by_cases h2 : rowsCover bs ox (y + 1) x' y'
      · have h1 : ¬ rowCovers b 8 ox y x' y' := rowsCover_disjoint (by omega) h2
        refine ⟨fun _ => ?_, fun h => absurd (.inr h2) h⟩
        rw [(ip x' y').1 h2]
        exact congrArg _ ((rp x' y').2 h1)
      · rw [(ip x' y').2 h2]
        refine ⟨fun h => (rp x' y').1 (h.resolve_right h2), fun h => (rp x' y').2 fun h1 => h (.inl h1)⟩
    · rw [Canvas.drawRows, ih]
      constructor
      · rintro (h | ⟨x', y', h, hg⟩)
        · rcases rh.1 h with h | ⟨x', y', h, hg⟩
          · exact .inl h
          · exact .inr ⟨x', y', (rowsCover_cons ..).2 (.inl h), hg⟩
        · refine .inr ⟨x', y', (rowsCover_cons ..).2 (.inr h), ?_⟩
          have h1 : ¬ rowCovers b 8 ox y x' y' := rowsCover_disjoint (by omega) h
          exact ((rp x' y').2 h1) ▸ hg
      · rintro (h | ⟨x', y', h, hg⟩)
        · exact .inl (rh.2 (.inl h))
        · rcases (rowsCover_cons ..).1 h with h | h
          · exact .inl (rh.2 (.inr ⟨x', y', h, hg⟩))
          · refine .inr ⟨x', y', h, ?_⟩
            have h1 : ¬ rowCovers b 8 ox y x' y' := rowsCover_disjoint (by omega) h
            exact ((rp x' y').2 h1).trans hg

end Sys2Proof.Machine
end

