-- ==== Sys2Proof/Tests/Slice0.lean ====
section
/-! SUPPORT. The model's own tests. Expected results come from the spec: the vectors T<n> of 95_test_vectors.md, or a word
written out bit by bit from the encodings of R63 and R70; each test names its source. Then one witness for the hypotheses of each
statement of Certificates/Slice0/Obligations.lean that has any. -/

namespace Sys2Proof.Tests

open Sys2Proof Sys2Proof.Machine

/-! ## Well-formedness: one ill-formed line for each check (R80) -/

theorem test_ill_formed_register : (AsmLine.mk .SKP [.v 16]).wellFormed = false := by decide
theorem test_ill_formed_second_register : (AsmLine.mk .XOR [.v 0, .v 16]).wellFormed = false := by decide
theorem test_ill_formed_addr : (AsmLine.mk .JP [.num 4096]).wellFormed = false := by decide
theorem test_ill_formed_byte : (AsmLine.mk .LD [.v 0, .num 256]).wellFormed = false := by decide
theorem test_ill_formed_nibble : (AsmLine.mk .DRW [.v 0, .v 0, .num 16]).wellFormed = false := by decide
theorem test_ill_formed_shape : (AsmLine.mk .LD [.DT, .ST]).wellFormed = false := by decide
theorem test_well_formed_line : (AsmLine.mk .DRW [.v 15, .v 0, .num 15]).wellFormed = true := by decide
theorem test_well_formed_instr : (Instr.drw 15 0 15).wellFormed = true := by decide
theorem test_ill_formed_does_not_assemble : assemble ⟨.JP, [.num 4096]⟩ = none := by decide
theorem test_optional_operand_omitted : assemble ⟨.SHR, [.v 2]⟩ = some (.shrReg 2 0) := by decide

/-! ## Decoding: one word per constructor, its fields written out as op, X, Y, N (R63, R70) -/

theorem test_decode_cls : decode 0b0000_0000_1110_0000 = .instr .cls := by decide
theorem test_decode_ret : decode 0b0000_0000_1110_1110 = .instr .ret := by decide
theorem test_decode_jp : decode 0b0001_0010_0011_0100 = .instr (.jp 0x234) := by decide
theorem test_decode_call : decode 0b0010_1111_1111_1110 = .instr (.call 0xFFE) := by decide
theorem test_decode_seByte : decode 0b0011_1010_0001_0000 = .instr (.seByte 10 0x10) := by decide
theorem test_decode_sneByte : decode 0b0100_1011_0010_0000 = .instr (.sneByte 11 0x20) := by decide
theorem test_decode_seReg : decode 0b0101_1010_1011_0000 = .instr (.seReg 10 11) := by decide
theorem test_decode_ldByte : decode 0b0110_1100_0011_0011 = .instr (.ldByte 12 0x33) := by decide
theorem test_decode_addByte : decode 0b0111_1101_0100_0100 = .instr (.addByte 13 0x44) := by decide
theorem test_decode_ldReg : decode 0b1000_1110_1111_0000 = .instr (.ldReg 14 15) := by decide
theorem test_decode_orReg : decode 0b1000_1110_1111_0001 = .instr (.orReg 14 15) := by decide
theorem test_decode_andReg : decode 0b1000_1110_1111_0010 = .instr (.andReg 14 15) := by decide
theorem test_decode_xorReg : decode 0b1000_1110_1111_0011 = .instr (.xorReg 14 15) := by decide
theorem test_decode_addReg : decode 0b1000_1110_1111_0100 = .instr (.addReg 14 15) := by decide
theorem test_decode_subReg : decode 0b1000_1110_1111_0101 = .instr (.subReg 14 15) := by decide
theorem test_decode_shrReg : decode 0b1000_1110_1111_0110 = .instr (.shrReg 14 15) := by decide
theorem test_decode_subnReg : decode 0b1000_1110_1111_0111 = .instr (.subnReg 14 15) := by decide
theorem test_decode_shlReg : decode 0b1000_1110_1111_1110 = .instr (.shlReg 14 15) := by decide
theorem test_decode_sneReg : decode 0b1001_1010_1011_0000 = .instr (.sneReg 10 11) := by decide
theorem test_decode_ldI : decode 0b1010_0101_0101_0101 = .instr (.ldI 0x555) := by decide
theorem test_decode_rnd : decode 0b1100_0111_1111_0000 = .instr (.rnd 7 0xF0) := by decide
theorem test_decode_drw : decode 0b1101_0101_1010_0111 = .instr (.drw 5 10 7) := by decide
theorem test_decode_skp : decode 0b1110_0011_1001_1110 = .instr (.skp 3) := by decide
theorem test_decode_sknp : decode 0b1110_0011_1010_0001 = .instr (.sknp 3) := by decide
theorem test_decode_ldVxDt : decode 0b1111_0010_0000_0111 = .instr (.ldVxDt 2) := by decide
theorem test_decode_ldVxK : decode 0b1111_0010_0000_1010 = .instr (.ldVxK 2) := by decide
theorem test_decode_ldDtVx : decode 0b1111_0010_0001_0101 = .instr (.ldDtVx 2) := by decide
theorem test_decode_ldStVx : decode 0b1111_0010_0001_1000 = .instr (.ldStVx 2) := by decide
theorem test_decode_addI : decode 0b1111_0010_0001_1110 = .instr (.addI 2) := by decide
theorem test_decode_ldF : decode 0b1111_0010_0010_1001 = .instr (.ldF 2) := by decide
theorem test_decode_ldB : decode 0b1111_0010_0011_0011 = .instr (.ldB 2) := by decide
theorem test_decode_ldMemVx : decode 0b1111_0010_0101_0101 = .instr (.ldMemVx 2) := by decide
theorem test_decode_ldVxMem : decode 0b1111_0010_0110_0101 = .instr (.ldVxMem 2) := by decide

/-- One rejected word of each family of R76. -/
theorem test_rejected_words :
    [0x0000#16, 0x5121#16, 0x812F#16, 0x9121#16, 0xB123#16, 0xE09F#16, 0xF056#16].map decode =
      [.rejected .family0, .rejected .family5, .rejected .family8, .rejected .family9, .rejected .familyB,
        .rejected .familyE, .rejected .familyF] := by decide

/-- The byte at the lower address is the high byte (section 2.7 of the vectors). -/
theorem test_byte_order : decodeBytes [0xA7, 0xD5] = .instr (.ldI 0x7D5) := by decide

theorem test_too_few_bytes : decodeBytes [0xA7] = .rejected .truncated := by decide

theorem test_table_word : decodeTableWord 16 0xA7D5 = some (.ldI 0x7D5) := by decide

/-! ## One step -/

/-- The state after one step that runs the word `w` at `PC`. -/
def after (w : Nat) (s : State) : Option State :=
  match step (s.withFetchWord 16 w) with
  | .next t => some t
  | .fault _ => none
  | .refused _ => none

/-- A state whose host issues the given commands first, then what it was to issue anyway. -/
def scheduled (l : List Command) (s : State) : State :=
  { s with schedule := { s.schedule with pending := l } }

/-- The state after one turn that runs a command. -/
def afterCommand (c : Command) (s : State) : Option State :=
  match step (scheduled [c] s) with
  | .next t => some t
  | .fault _ => none
  | .refused _ => none

/-- The reset state with registers written. -/
def withRegs (l : List (Reg × Byte)) : State := l.foldl (fun s p => s.setReg p.1 p.2) State.reset

/-- A state with a key held down. -/
def keyDown (k : Fin 16) (s : State) : State := { s with keys := s.keys.set k.val true k.isLt }

/-- A state with bytes put in memory. -/
def poke (a : Nat) (bs : List Byte) (s : State) : State := { s with mem := s.mem.writeBytes a bs }

/-- The reset state with `SP` set. -/
def withSp (n : Fin 17) : State := { State.reset with sp := n }

/-- The reset state, halted by a stack overflow. -/
def halted : State := { State.reset with fault := { cause := .stackOverflow, pc := 0x200, word := 0x2300, info := 0 } }

-- T1, T2
theorem test_jp : ((after 0x1ABC State.reset).map (·.pc), (after 0x1201 State.reset).map (·.pc)) =
    (some 0xABC, some 0x201) := by decide
-- T5, T6
theorem test_call_sixteenth : (after 0x2300 (withSp 15)).map (fun t => (t.stack[15], t.sp, t.pc)) =
    some (0x202, 16, 0x300) := by decide
theorem test_call_overflow : (after 0x2300 (withSp 16)).map (fun t => (t.fault, t.sp, t.pc)) =
    some (⟨.stackOverflow, 0x200, 0x2300, 0⟩, 16, 0x202) := by decide
-- T7, T8
theorem test_ret : (after 0x00EE { withSp 1 with stack := State.reset.stack.set 0 0x206, pc := 0x20C }).map
    (fun t => (t.sp, t.pc, t.stack[0])) = some (0, 0x206, 0x206) := by decide
theorem test_ret_underflow : (after 0x00EE State.reset).map (fun t => (t.fault, t.sp, t.pc)) =
    some (⟨.stackUnderflow, 0x200, 0x00EE, 0⟩, 0, 0x202) := by decide
-- T9, T10
theorem test_seByte : [0x3342, 0x3343].map (fun w => (after w (withRegs [(3, 0x42)])).map (·.pc)) =
    [some 0x204, some 0x202] := by decide
-- T11, T12
theorem test_sneByte : [0x4342, 0x4343].map (fun w => (after w (withRegs [(3, 0x42)])).map (·.pc)) =
    [some 0x202, some 0x204] := by decide
-- T13, T14
theorem test_seReg : [9, 8].map (fun b => (after 0x5120 (withRegs [(1, 9), (2, b)])).map (·.pc)) =
    [some 0x204, some 0x202] := by decide
-- T16, T17
theorem test_sneReg : [0x9120, 0x9110].map (fun w => (after w (withRegs [(1, 9), (2, 8)])).map (·.pc)) =
    [some 0x204, some 0x202] := by decide
-- T19: a skip at 0xFFC
theorem test_skip_at_the_top : (after 0x3000 { State.reset with pc := 0xFFC }).map (·.pc) = some 0x1000 := by decide
-- T20: the last fetchable address
theorem test_last_fetch : (after 0x6001 { State.reset with pc := 0xFFE }).map (fun t => (t.reg 0, t.pc)) =
    some (1, 0x1000) := by decide
-- T31
theorem test_ldByte_vf : (after 0x6F07 State.reset).map (fun t => (t.reg 15, t.pc)) = some (7, 0x202) := by decide
-- T32, T34
theorem test_addByte_no_flag : (after 0x7102 (withRegs [(1, 0xFF)])).map (fun t => (t.reg 1, t.reg 15)) =
    some (1, 0) := by decide
theorem test_addByte_vf : (after 0x7F03 (withRegs [(15, 0xFE)])).map (·.reg 15) = some 1 := by decide
-- T35
theorem test_ldReg : (after 0x8230 (withRegs [(3, 0xAB)])).map (fun t => (t.reg 2, t.reg 3)) =
    some (0xAB, 0xAB) := by decide
-- T36, T37, T38
theorem test_orReg : (after 0x8011 (withRegs [(0, 0xF0), (1, 0x0F), (15, 1)])).map (fun t => (t.reg 0, t.reg 15)) =
    some (0xFF, 1) := by decide
theorem test_andReg : (after 0x8012 (withRegs [(0, 0xF0), (1, 0x3C), (15, 1)])).map (fun t => (t.reg 0, t.reg 15)) =
    some (0x30, 1) := by decide
theorem test_xorReg : (after 0x8013 (withRegs [(0, 0xF0), (1, 0x3C), (15, 1)])).map (fun t => (t.reg 0, t.reg 15)) =
    some (0xCC, 1) := by decide
-- T44, T47 and T48
theorem test_addReg_carry : (after 0x8014 (withRegs [(0, 0xC8), (1, 0x64)])).map (fun t => (t.reg 0, t.reg 15)) =
    some (0x2C, 1) := by decide
theorem test_addReg_vf : ((after 0x8F14 (withRegs [(15, 0x10), (1, 0x20)])).map (·.reg 15),
    (after 0x80F4 (withRegs [(0, 0x10), (15, 1)])).map (fun t => (t.reg 0, t.reg 15))) =
    (some 0, some (0x11, 0)) := by decide
-- T49, T50
theorem test_subReg_equal : (after 0x8015 (withRegs [(0, 5), (1, 5)])).map (fun t => (t.reg 0, t.reg 15)) =
    some (0, 1) := by decide
theorem test_subReg_borrow : (after 0x8015 (withRegs [(0, 3), (1, 5)])).map (fun t => (t.reg 0, t.reg 15)) =
    some (0xFE, 0) := by decide
-- T54, T55
theorem test_subnReg : (after 0x8017 (withRegs [(0, 3), (1, 5)])).map (fun t => (t.reg 0, t.reg 15)) =
    some (2, 1) := by decide
theorem test_subnReg_borrow : (after 0x8017 (withRegs [(0, 5), (1, 3)])).map (fun t => (t.reg 0, t.reg 15)) =
    some (0xFE, 0) := by decide
-- T60, T63
theorem test_shrReg : (after 0x8206 (withRegs [(2, 0xFF)])).map (fun t => (t.reg 2, t.reg 15)) =
    some (0x7F, 1) := by decide
theorem test_shrReg_ignores_y : (after 0x8236 (withRegs [(2, 4), (3, 3)])).map (fun t => (t.reg 2, t.reg 15)) =
    some (2, 0) := by decide
-- T68, T69
theorem test_shlReg : (after 0x820E (withRegs [(2, 0x81)])).map (fun t => (t.reg 2, t.reg 15)) =
    some (2, 1) := by decide
theorem test_shlReg_no_bit : (after 0x820E (withRegs [(2, 1), (15, 1)])).map (fun t => (t.reg 2, t.reg 15)) =
    some (2, 0) := by decide
-- T80
theorem test_ldI : (after 0xA123 { State.reset with i := 0xFFFF }).map (·.i) = some 0x123 := by decide
-- T82, T83
theorem test_addI_past_memory : (after 0xF01E { withRegs [(0, 0xFF)] with i := 0x0FFF }).map
    (fun t => (t.i, t.reg 15)) = some (0x10FE, 0) := by decide
theorem test_addI_wraps : (after 0xF01E { withRegs [(0, 0xFF)] with i := 0xFFFF }).map (·.i) = some 0x00FE := by decide
-- T86
theorem test_ldF_low_nibble : (after 0xF029 (withRegs [(0, 0x1A)])).map (·.i) = some 0x82 := by decide
-- T87, T91
theorem test_ldB : (after 0xF033 { withRegs [(0, 254)] with i := 0x300 }).map (fun t => t.mem.readBytes 0x300 3) =
    some [2, 5, 4] := by decide
theorem test_ldB_outside : (after 0xF033 { withRegs [(0, 254)] with i := 0xFFE }).map
    (fun t => (t.fault, t.mem.readBytes 0xFFE 2, t.pc)) =
    some (⟨.addressFault, 0x200, 0xF033, 0x1000⟩, [0, 0], 0x202) := by decide
-- T92, T96
theorem test_ldMemVx : (after 0xF255 { withRegs [(0, 0x11), (1, 0x22), (2, 0x33), (3, 0x44)] with i := 0x400 }).map
    (fun t => (t.mem.readBytes 0x400 4, t.i)) = some ([0x11, 0x22, 0x33, 0], 0x400) := by decide
theorem test_ldMemVx_outside : (after 0xF055 { State.reset with i := 0x11FD }).map (·.fault) =
    some ⟨.addressFault, 0x200, 0xF055, 0x11FD⟩ := by decide
-- T97, T98
theorem test_ldVxMem : (after 0xF265 (poke 0x300 [2, 5, 4, 7] { withRegs [(3, 0x99)] with i := 0x300 })).map
    (fun t => (t.reg 0, t.reg 1, t.reg 2, t.reg 3, t.i)) = some (2, 5, 4, 0x99, 0x300) := by decide
theorem test_ldVxMem_font : (after 0xF465 { State.reset with i := 0x50 }).map
    (fun t => (t.reg 0, t.reg 1, t.reg 4)) = some (0xF0, 0x90, 0xF0) := by decide
-- T110, on a screen with a pixel on
theorem test_cls : (after 0x00E0 { State.reset with fb := Pixels.set State.reset.fb 5 9 true }).map
    (fun t => Pixels.get t.fb 5 9) = some false := by decide
-- T113 and T123
theorem test_drw_wraps_down : (after 0xD012 (poke 0x300 [0x80, 0x80] { withRegs [(1, 31)] with i := 0x300 })).map
    (fun t => (Pixels.get t.fb 0 31, Pixels.get t.fb 0 0, t.reg 15)) = some (true, true, 0) := by decide
theorem test_drw_reads_vf_first : (after 0xDF11 (poke 0x300 [0x80] { withRegs [(15, 5)] with i := 0x300 })).map
    (fun t => (Pixels.get t.fb 5 0, t.reg 15)) = some (true, 0) := by decide
-- T131: 0 whatever the random byte is
theorem test_rnd_mask_zero : (after 0xC000 (withRegs [(0, 0x55)])).map (·.reg 0) = some 0 :=
  congrArg some BitVec.and_zero
-- T133, T137
theorem test_skp : (after 0xE09E (keyDown 7 (withRegs [(0, 7)]))).map (·.pc) = some 0x204 := by decide
theorem test_skp_no_such_key : (after 0xE09E (withRegs [(0, 0x10)])).map (fun t => (t.fault, t.pc)) =
    some (⟨.keyIndexFault, 0x200, 0xE09E, 0x10⟩, 0x202) := by decide
-- T135, T136
theorem test_sknp_down : (after 0xE0A1 (keyDown 7 (withRegs [(0, 7)]))).map (·.pc) = some 0x202 := by decide
theorem test_sknp_up : (after 0xE0A1 (withRegs [(0, 7)])).map (·.pc) = some 0x204 := by decide
-- T140
theorem test_ldVxDt : (after 0xF107 { State.reset with dt := 4 }).map (fun t => (t.reg 1, t.dt)) =
    some (4, 4) := by decide
-- T141, T143
theorem test_ldVxK_spin : (after 0xF00A (withRegs [(0, 0x55)])).map (fun t => (t.reg 0, t.pc)) =
    some (0x55, 0x200) := by decide
theorem test_ldVxK_lowest : (after 0xF00A (keyDown 9 (keyDown 7 State.reset))).map (fun t => (t.reg 0, t.pc)) =
    some (7, 0x202) := by decide
-- T145, T146
theorem test_ldDtVx : (after 0xF015 (withRegs [(0, 7)])).map (fun t => (t.dt, t.st)) = some (7, 0) := by decide
theorem test_ldStVx : (after 0xF318 (withRegs [(3, 2)])).map (fun t => (t.dt, t.st)) = some (0, 2) := by decide

/-! ## Unrecognised words, events and commands -/

-- T160
theorem test_reset_runs_into_zero : (step (scheduled [.step] State.reset), outputs (scheduled [.step] State.reset)) =
    (.next { State.reset with pc := 0x202, fault := ⟨.unknownInstruction, 0x200, 0, 0⟩ }, [.unknown 0x200 0]) := rfl
-- T163
theorem test_unknown_not_strict : (after 0xB123 { withRegs [(0, 4)] with strict := false }).map
    (fun t => (t.pc, t.fault.cause)) = some (0x202, .none) := by decide
-- T171
theorem test_trace_event : outputs (({ withRegs [(0, 1), (1, 2), (2, 3), (3, 4)] with trace := true }).withFetchWord 16 0x6009) =
    [.trace 0x200 0x6009 1 2 3 4] := by decide
-- T149
theorem test_tick : (afterCommand .tick { State.reset with dt := 1, st := 1 }).map (fun t => (t.dt, t.st)) =
    some (0, 0) := by decide
theorem test_tick_beep : outputs (scheduled [.tick] { State.reset with dt := 1, st := 1 }) = [.beep true] := by decide
-- T165
theorem test_tick_halted : (afterCommand .tick { halted with dt := 5 }).map (·.dt) = some 5 := by decide
theorem test_load_halted : outputs (scheduled [.load [0x12]] halted) = [.loadStatus .halted] := by decide
-- T166
theorem test_reset_leaves_halted : (afterCommand (.reset false true) halted).map (fun t => (t.fault.cause, t.pc)) =
    some (.none, 0x200) := by decide
-- T169
theorem test_load : (afterCommand (.load [0x12, 0x00]) (poke 0x200 [0xAA, 0xAA, 0xAA] State.reset)).map
    (fun t => t.mem.readBytes 0x200 3) = some [0x12, 0x00, 0xAA] := by decide
-- T172
theorem test_reset_memory : [0x04F, 0x050, 0x09F, 0x0A0, 0x200].map State.reset.mem.read =
    [0, 0xF0, 0x80, 0, 0] := by decide

/-! ## Witnesses: the hypotheses of each statement can be met together, at the boundary values of its clauses -/

/-- A fetchable state whose next word is `w`. -/
def fetching (w : Nat) (s : State) : State := s.withFetchWord 16 w

/-- The reset state with `I` set. -/
def withI (a : Word) (s : State) : State := { s with i := a }

theorem witness_EncodeOfDecode : decode 0x1234 = .instr (.jp 0x234) := by decide

theorem witness_DecodeIsTheOpcodeMap : decode 0x8EF5 = .instr (.subReg 14 15) ∧
    opcodeTable[(Instr.subReg 14 15).rowIndex]?.map (fun r => decide (0x8EF5 &&& r.mask = r.pattern)) = some true := by
  decide

/-- The lowest and the highest `PC` a fetch can use. -/
theorem witness_StepRunsTheDecodedInstruction :
    ((fetching 0x6005 { State.reset with pc := 0 }).ready ∧
      decode (fetching 0x6005 { State.reset with pc := 0 }).nextWord = .instr (.ldByte 0 5)) ∧
    ((fetching 0x6005 { State.reset with pc := 0xFFE }).ready ∧
      decode (fetching 0x6005 { State.reset with pc := 0xFFE }).nextWord = .instr (.ldByte 0 5)) :=
  ⟨⟨⟨rfl, rfl, by decide⟩, by decide⟩, ⟨rfl, rfl, by decide⟩, by decide⟩

theorem witness_PlacedWordIsFetched : Memory.wf State.reset.mem ∧ (scheduled [.step] State.reset).ready ∧
    Memory.wf (poke 0xFFF [1] { halted with pc := 0xFFF }).mem := ⟨by decide, ⟨rfl, rfl, by decide⟩, by decide⟩

theorem witness_UnrecognisedWord :
    ((scheduled [.step] State.reset).ready ∧ decode (scheduled [.step] State.reset).nextWord = .rejected .family0 ∧
      (scheduled [.step] State.reset).strict = true) ∧
    ((scheduled [.step] { State.reset with strict := false }).ready ∧
      decode (scheduled [.step] { State.reset with strict := false }).nextWord = .rejected .family0) :=
  ⟨⟨⟨rfl, rfl, by decide⟩, by decide, rfl⟩, ⟨rfl, rfl, by decide⟩, by decide⟩

/-- A `PC` at the first address that cannot be fetched, and at the last. -/
theorem witness_FetchOutsideMemoryFaults : (scheduled [.step] State.reset).nextCommand = .step ∧
    (scheduled [.step] State.reset).fault.cause = .none ∧
    0x0FFF ≤ (scheduled [.step] { State.reset with pc := 0x0FFF }).pc.toNat ∧
    0x0FFF < (scheduled [.step] { State.reset with pc := 0xFFFF }).pc.toNat :=
  ⟨rfl, rfl, by decide, by decide⟩

theorem witness_StepEvents : ∀ trace : Bool,
    (fetching 0x6005 { State.reset with trace := trace }).ready ∧
    decode (fetching 0x6005 { State.reset with trace := trace }).nextWord = .instr (.ldByte 0 5) ∧
    (fetching 0xB123 { State.reset with trace := trace }).ready ∧
    decode (fetching 0xB123 { State.reset with trace := trace }).nextWord = .rejected .familyB :=
  fun trace => ⟨⟨rfl, rfl, by cases trace <;> decide⟩, by cases trace <;> decide,
    ⟨rfl, rfl, by cases trace <;> decide⟩, by cases trace <;> decide⟩

theorem witness_HaltedBlockIsInert : ∀ c ∈ [Command.step, .tick, .load [0x12], .setKeys (Vector.replicate 16 true)],
    (scheduled [c] halted).fault.cause ≠ .none ∧ (scheduled [c] halted).nextCommand = c ∧
    ∀ trace strict, c ≠ .reset trace strict := by decide

theorem witness_OnlyResetLeavesTheHaltedState : (scheduled [.tick, .step] halted).fault.cause ≠ .none ∧
    ∀ trace strict, Command.reset trace strict ∉ (scheduled [.tick, .step] halted).schedule.take 2 := by decide

theorem witness_TraceHasNoInfluence :
    (∀ trace strict, (fetching 0x6005 State.reset).nextCommand ≠ .reset trace strict) ∧
    (after 0x6005 State.reset).isSome = true := by decide

theorem witness_StrictGovernsUnrecognisedWordsOnly : (fetching 0x6005 State.reset).ready ∧
    decode (fetching 0x6005 State.reset).nextWord = .instr (.ldByte 0 5) ∧
    (after 0x6005 State.reset).isSome = true := ⟨⟨rfl, rfl, by decide⟩, by decide, by decide⟩

theorem witness_EveryInstructionKeepsItsFrame :
    exec .cls State.reset = .next { State.reset with fb := Pixels.clear } := rfl

/-- Each cause of an instruction at the edge of its condition, and no fault just inside it. -/
theorem witness_FaultsAreExactAndPrecise :
    faultOf (.call 0) (withSp 16) = some (.stackOverflow, 0) ∧ faultOf (.call 0) (withSp 15) = none ∧
    faultOf .ret (withSp 0) = some (.stackUnderflow, 0) ∧ faultOf .ret (withSp 1) = none ∧
    faultOf (.ldB 0) (withI 0xFFE State.reset) = some (.addressFault, 0x1000) ∧
    faultOf (.ldB 0) (withI 0xFFD State.reset) = none ∧
    faultOf (.drw 0 0 0) (withI 0xFFFF State.reset) = none ∧
    faultOf (.drw 0 0 1) (withI 0xFFFF State.reset) = some (.addressFault, 0xFFFF) ∧
    faultOf (.skp 0) (withRegs [(0, 16)]) = some (.keyIndexFault, 16) ∧
    faultOf (.sknp 0) (withRegs [(0, 255)]) = some (.keyIndexFault, 255) ∧
    faultOf (.skp 0) (withRegs [(0, 15)]) = none := by decide

theorem witness_CallPushesAndJumps : (withSp 15).sp.val < 16 ∧ State.reset.sp.val < 16 := by decide

theorem witness_RetPopsPc : (withSp 1).sp.val ≠ 0 ∧ (withSp 16).sp.val ≠ 0 := by decide

theorem witness_CallThenReturn : (withSp 15).sp.val < 16 ∧
    exec (.call 0x300) (withSp 15) = .next ((State.push (withSp 15) (by decide)).jump 0x300) := ⟨by decide, rfl⟩

/-- Both outcomes of each skip's condition. -/
theorem witness_CompareSkips : (withRegs [(1, 9), (2, 9)]).reg 1 = (withRegs [(1, 9), (2, 9)]).reg 2 ∧
    (withRegs [(1, 9), (2, 8)]).reg 1 ≠ (withRegs [(1, 9), (2, 8)]).reg 2 := by decide

/-- The destination of a flag-writing instruction can be, and can differ from, `VF`. -/
theorem witness_AddSetsCarry : (14 : Reg) ≠ 15 ∧ (0xFF#8).toNat + (0x01#8).toNat > 255 ∧
    ¬ (0x80#8).toNat + (0x7F#8).toNat > 255 := by decide

theorem witness_SubtractSetsNoBorrow : (14 : Reg) ≠ 15 ∧ (5#8).toNat ≥ (5#8).toNat ∧ ¬ (4#8).toNat ≥ (5#8).toNat := by
  decide

theorem witness_ShiftsSetTheBitShiftedOut : (0 : Reg) ≠ 15 ∧ (14 : Reg) ≠ 15 := by decide

theorem witness_DecimalDigitsStored : Memory.wf State.reset.mem ∧
    (withI 0xFFD State.reset).i.toNat + 2 ≤ 0xFFF := by decide

theorem witness_BulkStore : Memory.wf (withI 0xFF0 State.reset).mem ∧
    (withI 0xFF0 State.reset).i.toNat + (15 : Reg).val ≤ 0xFFF ∧ (15 : Reg) ≤ 15 ∧ (0 : Reg) ≤ 15 := by decide

theorem witness_BulkLoad : (withI 0xFFF State.reset).i.toNat + (0 : Reg).val ≤ 0xFFF ∧ (0 : Reg) ≤ 0 ∧
    (0 : Reg) < 1 ∧ (withI 0xFF0 State.reset).i.toNat + (15 : Reg).val ≤ 0xFFF := by decide

/-- Two registers stored at the last two bytes of memory, and a `PC` there. -/
theorem witness_StoredBytesAreFetched :
    Memory.wf (withI 0xFFE (withRegs [(0, 0x12), (1, 0x34)])).mem ∧
    (withI 0xFFE (withRegs [(0, 0x12), (1, 0x34)])).i.toNat + (1 : Reg).val ≤ 0xFFF ∧
    (0 : Reg).val + 1 = (1 : Reg).val ∧ (1 : Reg) ≤ 1 ∧
    (∃ t u : State, exec (.ldMemVx 1) (withI 0xFFE (withRegs [(0, 0x12), (1, 0x34)])) = .next t ∧ u.mem = t.mem ∧
      u.pc.toNat = 0xFFE + 0) :=
  ⟨by decide, by decide, by decide, by decide,
    _, { State.reset with mem := [(0xFFE, 0x12), (0xFFF, 0x34)], pc := 0xFFE }, rfl, rfl, rfl⟩

/-- A one-row sprite at the last byte of memory, and a sprite of no rows anywhere. -/
theorem witness_DrwTogglesTheSprite :
    ((0 : Nibble).toNat = 0 ∧ (withI 0xFFFF State.reset).i.toNat = 0xFFFF) ∧
    (withI 0xFFF State.reset).i.toNat + (1 : Nibble).toNat - 1 ≤ 0xFFF ∧
    spriteCovers [(0xFFF, 0x80)] 0xFFF 1 63 31 63 31 ∧ ¬ spriteCovers [(0xFFF, 0x80)] 0xFFF 1 63 31 0 31 :=
  ⟨by decide, by decide, ⟨0, by decide, 0, by decide, by decide, by decide, by decide⟩, by
    rintro ⟨row, hrow, bit, hbit, hx, -, hs⟩
    have hb : bit = 1 := by have : (0 : Fin 64).val = 0 := rfl; omega
    have hr : row = 0 := by omega
    subst hb hr
    exact absurd hs (by decide)⟩

/-- The collision clause: a pixel that the sprite covers is on. -/
theorem witness_DrwTogglesTheSprite_collision :
    (withI 0xFFF { State.reset with fb := Pixels.set Pixels.clear 63 31 true }).i.toNat + (1 : Nibble).toNat - 1 ≤ 0xFFF ∧
    ∃ px py, spriteCovers [(0xFFF, 0x80)] 0xFFF 1 63 31 px py ∧
      Pixels.get (Pixels.set Pixels.clear 63 31 true) px py = true :=
  ⟨by decide, 63, 31, ⟨0, by decide, 0, by decide, by decide, by decide, by decide⟩, by decide⟩

/-- The clause of a second draw on a screen where every covered pixel was on: the sprite has one 1 bit, at (0, 0). -/
theorem witness_DrawingTwiceRestores_all_on (px : Fin 64) (py : Fin 32)
    (h : spriteCovers [(0x300, 0x80)] 0x300 1 0 0 px py) :
    Pixels.get (Pixels.set Pixels.clear 0 0 true) px py = true := by
  obtain ⟨row, hrow, bit, hbit, hx, hy, hs⟩ := h
  have hr : row = 0 := by omega
  subst hr
  have hb : bit = 0 := by
    interval_cases bit <;> first | rfl | exact absurd hs (by decide)
  subst hb
  have ex : px = 0 := Fin.ext hx
  have ey : py = 0 := Fin.ext hy
  subst ex ey
  decide

theorem witness_DrawingTwiceRestores : (0 : Reg) ≠ 15 ∧ (1 : Reg) ≠ 15 ∧
    (poke 0x300 [0x80] (withI 0x300 State.reset)).i.toNat + (1 : Nibble).toNat ≤ 0x1000 ∧
    (∃ t, exec (.drw 0 1 1) (poke 0x300 [0x80] (withI 0x300 State.reset)) = .next t ∧ t.reg 15 = 0) ∧
    (poke 0x300 [0x80] State.reset).mem.read 0x300 ≠ 0 ∧ State.reset.mem.read 0x300 = 0 :=
  ⟨by decide, by decide, by decide, ⟨_, rfl, by decide⟩, by decide, by decide⟩

theorem witness_SpriteWrapsColumns : ((withRegs [(0, 60)]).reg 0).toNat = 60 ∧
    (withI 0xFFF State.reset).i.toNat ≤ 0xFFF ∧ (poke 0xFFF [0xFF] State.reset).mem.read 0xFFF = 0xFF := by decide

theorem witness_KeySkips : ((withRegs [(0, 15)]).reg 0).toNat = (15 : Fin 16).val ∧
    (State.reset.reg 0).toNat = (0 : Fin 16).val ∧ (keyDown 15 State.reset).keys[(15 : Fin 16)] = true ∧
    State.reset.keys[(15 : Fin 16)] = false := by decide

theorem witness_KeyWaitTakesTheLowestKey :
    (keyDown 9 (keyDown 7 State.reset)).keys[(7 : Fin 16)] = true ∧
    (∀ j : Fin 16, j < 7 → (keyDown 9 (keyDown 7 State.reset)).keys[j] = false) ∧
    (keyDown 0 State.reset).keys[(0 : Fin 16)] = true := by decide

/-- A wait during which the timers tick, and one of STEPs alone. -/
theorem witness_KeyWaitSpinsForEver :
    (fetching 0xF00A State.reset).fault.cause = .none ∧ (fetching 0xF00A State.reset).pc.toNat + 1 ≤ 0xFFF ∧
    decode (fetching 0xF00A State.reset).nextWord = .instr (.ldVxK 0) ∧
    (∀ k : Fin 16, (fetching 0xF00A State.reset).keys[k] = false) ∧
    (∀ c ∈ (scheduled [.step, .tick, .setKeys (Vector.replicate 16 false)] (fetching 0xF00A State.reset)).schedule.take 4,
      c = .step ∨ c = .tick ∨ c = .setKeys (Vector.replicate 16 false)) ∧
    (∀ c ∈ (fetching 0xF00A State.reset).schedule.take 4, c = .step) := by decide

theorem witness_TickCountsDown : (scheduled [.tick] State.reset).nextCommand = .tick ∧
    (scheduled [.tick] State.reset).fault.cause = .none ∧ (scheduled [.tick] halted).nextCommand = .tick ∧
    (scheduled [.tick] halted).fault.cause ≠ .none := by decide

theorem witness_TimersStopAtZero : (scheduled [.tick, .tick, .step] State.reset).fault.cause = .none ∧
    (scheduled [.tick, .tick, .step] State.reset).schedule.take 2 = List.replicate 2 .tick := by decide

theorem witness_SetKeysReplacesAll :
    (scheduled [.setKeys (Vector.replicate 16 true)] State.reset).nextCommand = .setKeys (Vector.replicate 16 true) ∧
    (scheduled [.setKeys (Vector.replicate 16 true)] State.reset).fault.cause = .none ∧
    (scheduled [.setKeys (Vector.replicate 16 true)] halted).fault.cause ≠ .none := by decide

/-- The longest image that fits, the shortest that does not, and a halted block. -/
theorem witness_LoadCopiesTheImage : Memory.wf State.reset.mem ∧ State.reset.fault.cause = .none ∧
    (scheduled [.load (List.replicate 3584 0xAA)] State.reset).nextCommand = .load (List.replicate 3584 0xAA) ∧
    (List.replicate 3584 (0xAA : Byte)).length ≤ 3584 ∧ 3584 < (List.replicate 3585 (0xAA : Byte)).length ∧
    halted.fault.cause ≠ .none :=
  ⟨by decide, rfl, rfl, by rw [List.length_replicate], by rw [List.length_replicate]; decide, by decide⟩

theorem witness_ResetClearsEverything :
    (scheduled [.reset true false] halted).nextCommand = .reset true false ∧
    (scheduled [.reset true false] halted).fault.cause ≠ .none := by decide

theorem witness_EveryTurnKeepsTheInvariant : (scheduled [.step] State.reset).Inv ∧
    step (scheduled [.step] State.reset) = .next { State.reset with pc := 0x202, fault := ⟨.unknownInstruction, 0x200, 0, 0⟩ } :=
  ⟨⟨by decide, by decide, by decide, rfl⟩, rfl⟩

end Sys2Proof.Tests
end

/-! SUPPORT and PROOFS for the family 10_state.md: what each instruction with two outcomes can do, the frame of every
instruction (O18), and the invariant at reset and of every turn (O51, O52). -/

namespace Sys2Proof.Machine

open Sys2Proof

/-! ## What the instructions with two outcomes can do -/

/-- RET either pops or takes a stack underflow (R100, R203). -/
theorem execRet_cases (s : State) :
    (∃ h : s.sp.val ≠ 0, execRet s = .next (s.pop h)) ∨
    (s.sp.val = 0 ∧ execRet s = .next (s.raise .stackUnderflow s.pc0 (encode .ret) 0)) := by
  unfold execRet
  by_cases h : s.sp.val = 0
  · exact .inr ⟨h, by rw [dif_pos h]; rfl⟩
  · exact .inl ⟨h, dif_neg h⟩

/-- CALL either pushes and jumps or takes a stack overflow (R104, R202). -/
theorem execCall_cases (nnn : Addr12) (s : State) :
    (∃ h : s.sp.val < 16, execCall nnn s = .next ((s.push h).jump (zext16 nnn))) ∨
    (s.sp.val = 16 ∧ execCall nnn s = .next (s.raise .stackOverflow s.pc0 (encode (.call nnn)) 0)) := by
  unfold execCall
  by_cases h : s.sp.val < 16
  · exact .inl ⟨h, dif_pos h⟩
  · exact .inr ⟨by omega, by rw [dif_neg h]; rfl⟩

/-- LD Vx, K either loads the picked key's number or goes back to itself (R190). -/
theorem execLdVxK_cases (x : Reg) (s : State) :
    (∃ k, pickKey s.keys = some k ∧ execLdVxK x s = .next (s.setReg x (BitVec.ofNat 8 k.val))) ∨
    (pickKey s.keys = none ∧ execLdVxK x s = .next s.rewind) := by
  unfold execLdVxK
  cases hk : pickKey s.keys with
  | some k => exact .inl ⟨k, rfl, rfl⟩
  | none => exact .inr ⟨rfl, rfl⟩

/-! ## The frame of every instruction -/

/-- A frame of an instruction that can fault: its own frame and `FAULT`. -/
theorem OnlyChanges.orFault {regs : List Reg} {parts : List Part} {s t : State} (h : OnlyChanges regs parts s t) :
    OnlyChanges regs (parts ++ [.fault]) s t :=
  h.mono (List.Subset.refl _) (List.subset_append_left _ _)

/-- A fault stays in the frame of any instruction that can fault (R208). -/
theorem onlyChanges_raise_orFault (regs : List Reg) (parts : List Part) (s : State) (c : FaultCause) (p w : Word)
    (n : BitVec 17) : OnlyChanges regs (parts ++ [.fault]) s (s.raise c p w n) :=
  (onlyChanges_raise s c p w n).mono (List.nil_subset _) (List.subset_append_right _ _)

theorem onlyChanges_withRange {regs : List Reg} {parts : List Part} {i : Instr} {count : Nat} {s u t : State}
    (hu : OnlyChanges regs parts s u) (h : withRange i count s u = .next t) :
    OnlyChanges regs (parts ++ [.fault]) s t := by
  rcases withRange_cases i count s u with ⟨-, e⟩ | ⟨-, -, e⟩
  · cases e.symm.trans h
    exact hu.orFault
  · cases e.symm.trans h
    exact onlyChanges_raise_orFault ..

theorem onlyChanges_skipOnKey {i : Instr} {wanted : Bool} {b : Byte} {s t : State}
    (h : skipOnKey i wanted b s = .next t) : OnlyChanges [] [.pc, .fault] s t := by
  rcases skipOnKey_cases i wanted b s with ⟨_, e⟩ | ⟨-, e⟩
  · cases e.symm.trans h
    exact (onlyChanges_skipIf _ s).orFault
  · cases e.symm.trans h
    exact onlyChanges_raise_orFault [] [.pc] ..

theorem onlyChanges_execRet {s t : State} (h : execRet s = .next t) :
    OnlyChanges [] [.pc, .stackPointer, .fault] s t := by
  rcases execRet_cases s with ⟨hsp, e⟩ | ⟨-, e⟩
  · cases e.symm.trans h
    exact (onlyChanges_pop s hsp).orFault
  · cases e.symm.trans h
    exact onlyChanges_raise_orFault [] [.pc, .stackPointer] ..

theorem onlyChanges_execCall {nnn : Addr12} {s t : State} (h : execCall nnn s = .next t) :
    OnlyChanges [] [.pc, .stackPointer, .stack, .fault] s t := by
  rcases execCall_cases nnn s with ⟨hsp, e⟩ | ⟨-, e⟩
  · cases e.symm.trans h
    exact ((onlyChanges_push s hsp).trans (onlyChanges_jump _ _)).mono (List.Subset.refl _) (by simp)
  · cases e.symm.trans h
    exact onlyChanges_raise_orFault [] [.pc, .stackPointer, .stack] ..

theorem onlyChanges_execLdVxK {x : Reg} {s t : State} (h : execLdVxK x s = .next t) :
    OnlyChanges [x] [.pc] s t := by
  rcases execLdVxK_cases x s with ⟨k, -, e⟩ | ⟨-, e⟩
  · cases e.symm.trans h
    exact (onlyChanges_setReg s x _).mono (List.Subset.refl _) (List.nil_subset _)
  · cases e.symm.trans h
    exact (onlyChanges_rewind s).mono (List.nil_subset _) (List.Subset.refl _)

/-- The frame of every instruction, from the frames of the operations it is written over. -/
theorem onlyChanges_exec {i : Instr} {s t : State} (h : exec i s = .next t) :
    OnlyChanges (destRegs i) (writesParts i) s t := by
  cases i with
  | cls => cases h; exact onlyChanges_pixels s _
  | ret => exact onlyChanges_execRet h
  | jp => cases h; exact onlyChanges_jump s _
  | call => exact onlyChanges_execCall h
  | seByte | sneByte | seReg | sneReg => cases h; exact onlyChanges_skipIf _ s
  | ldByte | addByte | ldReg | orReg | andReg | xorReg | ldVxDt => cases h; exact onlyChanges_setReg s _ _
  | addReg | subReg | shrReg | subnReg | shlReg => cases h; exact onlyChanges_setResultAndFlag s _ _ _
  | ldI | addI | ldF => cases h; exact onlyChanges_index s _
  | rnd => cases h; exact (onlyChanges_drawRand s).trans (onlyChanges_setReg _ _ _)
  | drw => exact onlyChanges_withRange ((onlyChanges_pixels s _).trans (onlyChanges_setReg _ _ _)) h
  | skp | sknp => exact onlyChanges_skipOnKey h
  | ldVxK => exact onlyChanges_execLdVxK h
  | ldDtVx => cases h; exact onlyChanges_delay s _
  | ldStVx => cases h; exact onlyChanges_sound s _
  | ldB | ldMemVx => exact onlyChanges_withRange (onlyChanges_memory s _) h
  | ldVxMem x => exact onlyChanges_withRange (onlyChanges_loadRegs s _ x) h

/-! ## The invariant, operation by operation -/

/-- The invariant speaks of four fields only. -/
theorem State.Inv.of_fields_eq {s t : State} (h : s.Inv) (hmem : t.mem = s.mem) (hstack : t.stack = s.stack)
    (hpc : t.pc = s.pc) (hfault : t.fault = s.fault) : t.Inv := by
  simpa only [State.Inv, hmem, hstack, hpc, hfault] using h

/-- Any write of `PC` in its range; the advance and the rewind are such writes too. -/
theorem State.Inv.jump {s : State} (h : s.Inv) {a : Word} (ha : a.toNat ≤ 0x1002) : (s.jump a).Inv := by
  obtain ⟨hmem, hstack, -, hfault⟩ := h
  exact ⟨hmem, hstack, ha, hfault⟩

theorem State.Inv.raise {s : State} (h : s.Inv) {f : FaultRecord} (hf : f.legal) :
    (s.raise f.cause f.pc f.word f.info).Inv := by
  obtain ⟨hmem, hstack, hpc, -⟩ := h
  exact ⟨hmem, hstack, hpc, hf⟩

theorem State.Inv.writeBytes {s : State} (h : s.Inv) {base : Nat} {bs : List Byte}
    (hb : base + bs.length ≤ 4096) : State.Inv { s with mem := s.mem.writeBytes base bs } := by
  obtain ⟨hmem, hstack, hpc, hfault⟩ := h
  exact ⟨Memory.wf_writeBytes hmem hb, hstack, hpc, hfault⟩

theorem State.Inv.push {s : State} (h : s.Inv) (hsp : s.sp.val < 16) (hpc : s.pc.toNat ≤ 0x1000) :
    (s.push hsp).Inv := by
  obtain ⟨hmem, hstack, hpc', hfault⟩ := h
  refine ⟨hmem, fun k => ?_, hpc', hfault⟩
  simp only [State.push_stack, Fin.getElem_fin, Vector.getElem_set]
  split
  · exact hpc
  · exact hstack k

/-- RET goes to a stack entry, and those are bounded (D29). -/
theorem State.Inv.pop {s : State} (h : s.Inv) (hsp : s.sp.val ≠ 0) : (s.pop hsp).Inv := by
  obtain ⟨hmem, hstack, -, hfault⟩ := h
  have hentry : (s.pop hsp).pc.toNat ≤ 0x1000 := hstack ⟨s.sp.val - 1, by omega⟩
  exact ⟨hmem, hstack, by omega, hfault⟩

/-- The information of an address fault at a 16-bit base is an address outside memory (R204). -/
theorem FaultRecord.legal_addressFault (base pc w : Word) :
    FaultRecord.legal ⟨.addressFault, pc, w, BitVec.ofNat 17 (max base.toNat 4096)⟩ := by
  have := base.isLt
  simp only [FaultRecord.legal, BitVec.toNat_ofNat]
  omega

/-- The information of a key fault is the register's value (R205). -/
theorem FaultRecord.legal_keyIndexFault {b : Byte} (h : 15 < b.toNat) (pc w : Word) :
    FaultRecord.legal ⟨.keyIndexFault, pc, w, b.setWidth 17⟩ := by
  have := b.isLt
  simp only [FaultRecord.legal, BitVec.toNat_setWidth]
  omega

theorem State.Inv.withRange {i : Instr} {count : Nat} {s u t : State} (hs : s.Inv)
    (h : withRange i count s u = .next t) (hu : count = 0 ∨ s.i.toNat + count ≤ 4096 → u.Inv) : t.Inv := by
  rcases withRange_cases i count s u with ⟨hfits, e⟩ | ⟨-, -, e⟩
  · cases e.symm.trans h
    exact hu hfits
  · cases e.symm.trans h
    exact hs.raise (FaultRecord.legal_addressFault ..)

/-- The state after any RESET (R29). -/
theorem State.inv_afterReset (trace strict : Bool) : (State.afterReset trace strict).Inv :=
  ⟨Memory.wf_nil, fun k => by simp [State.afterReset], (by decide : (0x200#16).toNat ≤ 0x1002), rfl⟩

/-! ## The invariant while an instruction executes -/

/-- The invariant at the point of the cycle where an instruction executes: a fetchable `PC` has been advanced by 2
(R43, R60). -/
structure State.Executing (s : State) : Prop where
  inv : s.Inv
  le_pc : 2 ≤ s.pc.toNat
  pc_le : s.pc.toNat ≤ 0x1000

theorem State.Inv.executing_advance {s : State} (h : s.Inv) (hpc : s.pc.toNat + 1 ≤ 0xFFF) :
    s.advance.Executing := by
  have hadd : s.advance.pc.toNat = s.pc.toNat + 2 := by
    rw [State.advance_pc, Config.instrBytes]
    bv_omega
  exact ⟨h.jump (a := s.advance.pc) (by omega), by omega, by omega⟩

theorem State.Executing.skipIf {s : State} (h : s.Executing) (c : Bool) : (s.skipIf c).Inv := by
  cases c with
  | false => exact h.inv
  | true =>
    have hpc := h.pc_le
    refine h.inv.jump (a := s.pc + 2) ?_
    bv_omega

theorem State.Executing.rewind {s : State} (h : s.Executing) : s.rewind.Inv := by
  obtain ⟨hinv, hle, hge⟩ := h
  refine hinv.jump (a := s.pc - 2) ?_
  bv_omega

theorem State.Inv.jump_zext16 {s : State} (h : s.Inv) (nnn : Addr12) : (s.jump (zext16 nnn)).Inv := by
  refine h.jump ?_
  have := nnn.isLt
  rw [zext16, BitVec.toNat_setWidth]
  omega

theorem State.Executing.skipOnKey {i : Instr} {wanted : Bool} {b : Byte} {s t : State} (hs : s.Executing)
    (h : skipOnKey i wanted b s = .next t) : t.Inv := by
  rcases skipOnKey_cases i wanted b s with ⟨_, e⟩ | ⟨hb, e⟩
  · cases e.symm.trans h
    exact hs.skipIf _
  · cases e.symm.trans h
    exact hs.inv.raise (FaultRecord.legal_keyIndexFault hb ..)

theorem State.Inv.execRet {s t : State} (hs : s.Inv) (h : execRet s = .next t) : t.Inv := by
  rcases execRet_cases s with ⟨hsp, e⟩ | ⟨-, e⟩
  · cases e.symm.trans h
    exact hs.pop hsp
  · cases e.symm.trans h
    exact hs.raise (f := ⟨.stackUnderflow, _, _, 0⟩) rfl

theorem State.Executing.execCall {nnn : Addr12} {s t : State} (hs : s.Executing) (h : execCall nnn s = .next t) :
    t.Inv := by
  rcases execCall_cases nnn s with ⟨hsp, e⟩ | ⟨-, e⟩
  · cases e.symm.trans h
    exact (hs.inv.push hsp hs.pc_le).jump_zext16 nnn
  · cases e.symm.trans h
    exact hs.inv.raise (f := ⟨.stackOverflow, _, _, 0⟩) rfl

theorem State.Executing.execLdVxK {x : Reg} {s t : State} (hs : s.Executing) (h : execLdVxK x s = .next t) :
    t.Inv := by
  rcases execLdVxK_cases x s with ⟨k, -, e⟩ | ⟨-, e⟩
  · cases e.symm.trans h
    exact hs.inv.of_fields_eq rfl rfl rfl rfl
  · cases e.symm.trans h
    exact hs.rewind

/-- Every instruction, from the operation it is written over. -/
theorem State.Executing.exec {i : Instr} {s t : State} (hs : s.Executing) (h : exec i s = .next t) : t.Inv := by
  cases i with
  | ret => exact hs.inv.execRet h
  | jp nnn => cases h; exact hs.inv.jump_zext16 nnn
  | call => exact hs.execCall h
  | seByte | sneByte | seReg | sneReg => cases h; exact hs.skipIf _
  | skp | sknp => exact hs.skipOnKey h
  | ldVxK => exact hs.execLdVxK h
  | drw x y n =>
    refine hs.inv.withRange h fun _ => ?_
    exact hs.inv.of_fields_eq (State.setReg_mem ..) (State.setReg_stack ..) (State.setReg_pc ..) (State.setReg_fault ..)
  | ldVxMem =>
    refine hs.inv.withRange h fun _ => ?_
    exact hs.inv.of_fields_eq (State.loadRegs_mem ..) (State.loadRegs_stack ..) (State.loadRegs_pc ..)
      (State.loadRegs_fault ..)
  | ldB x =>
    refine hs.inv.withRange h fun hfits => hs.inv.writeBytes ?_
    show s.i.toNat + 3 ≤ 4096
    omega
  | ldMemVx x =>
    refine hs.inv.withRange h fun hfits => hs.inv.writeBytes ?_
    rw [State.length_regsUpTo, State.ea]
    unfold regCount at hfits
    omega
  | cls | ldByte | addByte | ldReg | orReg | andReg | xorReg | addReg | subReg | shrReg | subnReg | shlReg | ldI | rnd
    | ldVxDt | ldDtVx | ldStVx | addI | ldF =>
    cases h
    exact hs.inv.of_fields_eq rfl rfl rfl rfl

/-! ## The invariant of every turn -/

theorem State.Executing.execWord {w : Word} {s t : State} (hs : s.Executing) (h : execWord w s = .next t) :
    t.Inv := by
  unfold Machine.execWord at h
  split at h
  · exact hs.exec h
  · rcases unknownWord_cases w s with ⟨-, e⟩ | ⟨-, e⟩
    · cases e.symm.trans h
      exact hs.inv.raise (f := ⟨.unknownInstruction, _, _, 0⟩) rfl
    · cases e.symm.trans h
      exact hs.inv

theorem State.Inv.stepCommand {s t : State} (hs : s.Inv) (h : stepCommand s = .next t) : t.Inv := by
  rcases stepCommand_cases s with ⟨-, e⟩ | ⟨-, -, e⟩ | ⟨-, hpc, e⟩
  · cases e.symm.trans h
    exact hs
  · cases e.symm.trans h
    exact hs.raise (FaultRecord.legal_addressFault ..)
  · exact (hs.executing_advance hpc).execWord (e.symm.trans h)

/-- LOAD writes only an image that fits (R256). -/
theorem loadStatus_eq_ok {bytes : List Byte} {s : State} (h : loadStatus bytes s = .ok) :
    bytes.length ≤ Config.maxImage := by
  unfold loadStatus at h
  split at h
  · cases h
  · split at h
    · cases h
    · omega

theorem State.Inv.loadCommand {s : State} (h : s.Inv) (bytes : List Byte) : (loadCommand bytes s).Inv := by
  unfold Machine.loadCommand
  split
  · next hok =>
    refine h.writeBytes ?_
    have := loadStatus_eq_ok hok
    simp only [Config.maxImage, Config.memSize, Config.programOrigin] at this ⊢
    omega
  · exact h
  · exact h

theorem State.Inv.runCommand {c : Command} {s t : State} (hs : s.Inv) (h : runCommand c s = .next t) : t.Inv := by
  cases c with
  | reset trace strict => cases h; exact (State.inv_afterReset trace strict).of_fields_eq rfl rfl rfl rfl
  | load bytes => cases h; exact hs.loadCommand bytes
  | setKeys keys => cases h; exact hs.of_fields_eq (by simp) (by simp) (by simp) (by simp)
  | step => exact hs.stepCommand h
  | tick => cases h; exact hs.of_fields_eq (by simp) (by simp) (by simp) (by simp)

theorem State.Inv.issue {s : State} (h : s.Inv) : s.issue.Inv := h.of_fields_eq rfl rfl rfl rfl

end Sys2Proof.Machine

/-! ## The obligations -/

namespace Sys2Proof.Proofs

open Sys2Proof Sys2Proof.Machine

/-- Settles O51: the state after any RESET meets the invariant. -/
theorem resetMeetsTheInvariant : Obligations.ResetMeetsTheInvariant := State.inv_afterReset false true

/-- Settles O18: each instruction's frame is put together from the frames of the shared operations. -/
theorem everyInstructionKeepsItsFrame : Obligations.EveryInstructionKeepsItsFrame :=
  fun _ _ _ h => onlyChanges_exec h

/-- Settles O52: the host's issuing of a command keeps the invariant, and so does every command. A STEP executes from
a `PC` of 2 to 0x1000 (`State.Executing`), which is what bounds the skips and the pushed entry. -/
theorem everyTurnKeepsTheInvariant : Obligations.EveryTurnKeepsTheInvariant :=
  fun _ _ hs h => hs.issue.runCommand h

end Sys2Proof.Proofs

/-! SUPPORT and PROOFS for the family 20_memory.md: a fetch outside memory (O11), the placing of a word (O9), and the fetch
of bytes that a bulk store left (O36). -/

namespace Sys2Proof.Machine

open Sys2Proof

/-- The two ways the model writes the word at `PC` agree (R42). -/
theorem State.readWord_pc (s : State) : s.mem.readWord s.pc.toNat = s.nextWord := rfl

/-! ## A fetch outside memory -/

/-- The turn of a STEP whose fetch needs an address outside memory: the fetch fault, on the state whose schedule has
moved on (R43, R204). -/
theorem step_of_fetch_outside {s : State} (hstep : s.nextCommand = .step) (hcause : s.fault.cause = .none)
    (hpc : 0xFFF < s.pc.toNat + 1) :
    step s = .next (s.issue.raise .addressFault s.pc 0 (BitVec.ofNat 17 (max s.pc.toNat 4096))) := by
  rw [step_of_next_step hstep]
  rcases stepCommand_cases s.issue with ⟨hhalted, -⟩ | ⟨-, -, e⟩ | ⟨-, hin, -⟩
  · exact absurd hcause hhalted
  · exact e
  · rw [State.issue_pc] at hin
    omega

/-- Such a turn emits no event (R235). -/
theorem outputs_of_fetch_outside {s : State} (hstep : s.nextCommand = .step) (hcause : s.fault.cause = .none)
    (hpc : 0xFFF < s.pc.toNat + 1) : outputs s = [] := by
  rw [outputs, hstep, commandOutputs, stepOutputs, State.halted_eq_false.2 hcause, fetch_outside hpc]
  rfl

/-- The lowest address outside memory that a fetch at `PC` needs: `PC` itself, or `PC + 1` at the last byte (R204). -/
theorem fetchFault_info_toNat {pc : Word} (hpc : 0xFFF ≤ pc.toNat) :
    (BitVec.ofNat 17 (max pc.toNat 4096)).toNat = if 0xFFF < pc.toNat then pc.toNat else pc.toNat + 1 := by
  have := pc.isLt
  rw [BitVec.toNat_ofNat]
  split <;> omega

/-! ## The placing of a word -/

/-- A table word of 16 bits is placed whole. -/
theorem State.withFetchWord_toNat (s : State) (w : Word) : s.withFetchWord 16 w.toNat = s.placeWord w := by
  rw [State.withFetchWord, Nat.mod_eq_of_lt w.isLt, BitVec.ofNat_toNat, BitVec.setWidth_eq]

@[simp] theorem State.placeWord_pc (s : State) (w : Word) : (s.placeWord w).pc = s.fetchPlace := rfl

@[simp] theorem State.placeWord_schedule (s : State) (w : Word) :
    (s.placeWord w).schedule = Schedule.stepsOnly := rfl

@[simp] theorem State.placeWord_mem (s : State) (w : Word) :
    (s.placeWord w).mem = s.mem.writeBytes s.fetchPlace.toNat [hiByte w, loByte w] := rfl

/-- The fetch place of a state whose `PC` is fetchable is its `PC`. -/
theorem State.fetchPlace_eq_pc {s : State} (h : s.pc.toNat + 1 ≤ 0xFFF) : s.fetchPlace = s.pc := by
  rw [State.fetchPlace, firstOutside_eq_none.2 (.inr (by omega))]

/-- Placing keeps the `FAULT` record of a block that is not halted. -/
theorem State.placeWord_fault {s : State} (h : s.fault.cause = .none) (w : Word) :
    (s.placeWord w).fault = s.fault := by
  rw [State.placeWord, State.halted_eq_false.2 h]
  rfl

/-- The block is not halted after placing, halted or not before. -/
theorem State.placeWord_cause (s : State) (w : Word) : (s.placeWord w).fault.cause = .none := by
  by_cases h : s.fault.cause = .none
  · rw [State.placeWord_fault h, h]
  · rw [State.placeWord, State.halted_eq_true.2 h]
    rfl

theorem State.ready_placeWord (s : State) (w : Word) : (s.placeWord w).ready :=
  ⟨rfl, s.placeWord_cause w, s.fetchPlace_le⟩

/-- What memory reads as after placing: the two bytes of the word at the fetch place, and the rest as before. -/
theorem State.read_placeWord {s : State} (h : Memory.wf s.mem) (w : Word) (a : Nat) :
    (s.placeWord w).mem.read a =
      if s.fetchPlace.toNat ≤ a ∧ a < s.fetchPlace.toNat + 2 then [hiByte w, loByte w].getD (a - s.fetchPlace.toNat) 0
      else s.mem.read a := by
  have hplace := s.fetchPlace_le
  have hfit : s.fetchPlace.toNat + [hiByte w, loByte w].length ≤ Config.memSize := by
    simp only [List.length_cons, List.length_nil, Config.memSize]
    omega
  exact Memory.read_writeBytes h hfit a

theorem State.nextWord_placeWord {s : State} (h : Memory.wf s.mem) (w : Word) : (s.placeWord w).nextWord = w := by
  rw [← State.readWord_pc, State.placeWord_pc, Memory.readWord, State.read_placeWord h, State.read_placeWord h,
    if_pos (by omega), if_pos (by omega), Nat.sub_self, Nat.add_sub_cancel_left]
  exact wordOfBytes_hi_lo w

theorem memorySameOutside_placeWord {s : State} (h : Memory.wf s.mem) (w : Word) :
    MemorySameOutside (s.placeWord w).pc.toNat 2 s (s.placeWord w) := fun a ha => by
  rw [State.read_placeWord h]
  exact if_neg ha

theorem onlyChanges_placeWord (s : State) (w : Word) :
    OnlyChanges [] [.memory, .pc, .fault, .schedule] s (s.placeWord w) :=
  ⟨fun _ _ => rfl, fun p hp => by cases p <;> simp_all [Part.same, State.placeWord]⟩

/-! ## The bulk store -/

/-- LD [I], Vx whose range fits leaves `V[k]` at `I + k` for every k up to X (R158). -/
theorem read_of_exec_ldMemVx {s t : State} {x k : Reg} (hwf : Memory.wf s.mem) (hfit : s.i.toNat + x.val ≤ 0xFFF)
    (h : exec (.ldMemVx x) s = .next t) (hk : k ≤ x) : t.mem.read (s.i.toNat + k.val) = s.reg k := by
  have hrun : exec (.ldMemVx x) s = .next { s with mem := s.mem.writeBytes s.i.toNat (s.regsUpTo x) } :=
    withRange_fits (.inr (by unfold regCount; omega))
  cases hrun.symm.trans h
  have hlen := s.length_regsUpTo x
  have hkx : k.val ≤ x.val := hk
  rw [Memory.read_writeBytes hwf (by unfold Config.memSize; omega), if_pos (by omega), Nat.add_sub_cancel_left]
  exact s.getD_regsUpTo x k hk

end Sys2Proof.Machine

/-! ## The obligations -/

namespace Sys2Proof.Proofs

open Sys2Proof Sys2Proof.Machine

/-- Settles O11: the turn is the fetch fault of `step_of_fetch_outside`, whose frame is that of the host's issuing and of
the raise. -/
theorem fetchOutsideMemoryFaults : Obligations.FetchOutsideMemoryFaults := by
  intro s hstep hcause hpc
  have hout : 0xFFF < s.pc.toNat + 1 := by omega
  refine ⟨outputs_of_fetch_outside hstep hcause hout, _, step_of_fetch_outside hstep hcause hout, ?_, rfl, rfl, rfl,
    rfl, fetchFault_info_toNat hpc⟩
  exact ((onlyChanges_schedule s s.schedule.rest).trans (onlyChanges_raise s.issue ..)).mono (List.Subset.refl _)
    (by simp)

/-- Settles O9: with 16 bits `withFetchWord` is `placeWord`, which writes the word at a fetch place in memory. -/
theorem placedWordIsFetched : Obligations.PlacedWordIsFetched := by
  intro s w hwf
  rw [State.withFetchWord_toNat]
  refine ⟨s.ready_placeWord w, State.nextWord_placeWord hwf w, rfl, ?_, memorySameOutside_placeWord hwf w,
    onlyChanges_placeWord s w⟩
  rintro ⟨-, hcause, hpc⟩
  exact ⟨State.fetchPlace_eq_pc hpc, State.placeWord_fault hcause w⟩

/-- Settles O36: both bytes the fetch reads are stored registers, the second at `I + (k + 1)`. -/
theorem storedBytesAreFetched : Obligations.StoredBytesAreFetched := by
  intro s t u x k j hwf hfit hkj hjx hrun hmem hpc
  have hj : j.val ≤ x.val := hjx
  have hkx : k ≤ x := Fin.le_def.2 (by omega)
  have hhi : u.mem.read u.pc.toNat = s.reg k := by
    rw [hmem, hpc]
    exact read_of_exec_ldMemVx hwf hfit hrun hkx
  have hlo : u.mem.read (u.pc.toNat + 1) = s.reg j := by
    rw [hmem, hpc, Nat.add_assoc, hkj]
    exact read_of_exec_ldMemVx hwf hfit hrun hjx
  rw [fetch_word (by omega), Memory.readWord, hhi, hlo]
  rfl

end Sys2Proof.Proofs

/-! SUPPORT and PROOFS for the family 30_encoding.md: decoder and encoder are inverse to each other (O1, O2, O3), the nested
dispatch is the opcode map (O4), the unrecognised words (O5), the assembler (O6, O7), and the cycle: every turn returns
(O13), what a STEP that fetches runs (O8) and what it does with an unrecognised word (O10). -/

namespace Sys2Proof

/-! ## Decode after encode -/

/-- Each decoder reads back the fields its format was put together from (R62, R63). -/
theorem decode_encode (i : Instr) : decode (encode i) = .instr i := by
  cases i with
  | cls | ret => rfl
  | jp | call | ldI | seByte | sneByte | ldByte | addByte | rnd | seReg | sneReg | drw => simp [encode, decode]
  | ldReg | orReg | andReg | xorReg | addReg | subReg | shrReg | subnReg | shlReg => simp [encode, decode, decode8]
  | skp | sknp => simp [encode, decode, decodeE]
  | ldVxDt | ldVxK | ldDtVx | ldStVx | addI | ldF | ldB | ldMemVx | ldVxMem => simp [encode, decode, decodeF]

/-! ## Encode after decode -/

theorem formatA_eq_of_fieldOp {w : Word} {op : BitVec 4} (hop : fieldOp w = op) : formatA op (fieldNNN w) = w := by
  rw [← hop, formatA_fields]

theorem formatX_eq_of_fieldOp {w : Word} {op : BitVec 4} (hop : fieldOp w = op) :
    formatX op (fieldX w) (fieldNN w) = w := by
  rw [← hop, formatX_fields]

theorem formatXY_eq_of_fieldOp {w : Word} {op : BitVec 4} (hop : fieldOp w = op) :
    formatXY op (fieldX w) (fieldY w) (fieldN w) = w := by
  rw [← hop, formatXY_fields]

theorem encode_of_decode0 {w : Word} {i : Instr} (h : decode0 w = .instr i) : encode i = w := by
  unfold decode0 at h
  split at h
  · next hw => cases h; exact hw.symm
  · split at h
    · next hw => cases h; exact hw.symm
    · cases h

theorem encode_of_decode8 {w : Word} {i : Instr} (hop : fieldOp w = 0x8#4) (h : decode8 w = .instr i) :
    encode i = w := by
  have hw := formatXY_eq_of_fieldOp hop
  unfold decode8 at h
  split at h <;> cases h
  all_goals next hn => rwa [hn] at hw

theorem encode_of_decodeE {w : Word} {i : Instr} (hop : fieldOp w = 0xE#4) (h : decodeE w = .instr i) :
    encode i = w := by
  have hw := formatX_eq_of_fieldOp hop
  unfold decodeE at h
  split at h <;> cases h
  all_goals next hnn => rwa [hnn] at hw

theorem encode_of_decodeF {w : Word} {i : Instr} (hop : fieldOp w = 0xF#4) (h : decodeF w = .instr i) :
    encode i = w := by
  have hw := formatX_eq_of_fieldOp hop
  unfold decodeF at h
  split at h <;> cases h
  all_goals next hnn => rwa [hnn] at hw

/-- A word is its fields put together, and each arm of the decoder has compared or kept every field (R65). The cases are
the families 0 to F in order, but that B, which is rejected, comes last. -/
theorem encode_of_decode {w : Word} {i : Instr} (h : decode w = .instr i) : encode i = w := by
  unfold decode at h
  split at h
  case h_1 => exact encode_of_decode0 h
  case h_2 hop | h_3 hop | h_11 hop => cases h; exact formatA_eq_of_fieldOp hop
  case h_4 hop | h_5 hop | h_7 hop | h_8 hop | h_12 hop => cases h; exact formatX_eq_of_fieldOp hop
  case h_6 hop | h_10 hop =>
    split at h <;> cases h
    next hn => rw [encode, ← hn, formatXY_eq_of_fieldOp hop]
  case h_9 hop => exact encode_of_decode8 hop h
  case h_13 hop => cases h; exact formatXY_eq_of_fieldOp hop
  case h_14 hop => exact encode_of_decodeE hop h
  case h_15 hop => exact encode_of_decodeF hop h
  case h_16 => cases h

/-! ## The opcode map -/

section
open Laws.EncodeMatchesRow

theorem encode_matches_row (i : Instr) : Statement i :=
  i.casesOn cls ret jp call seByte sneByte seReg ldByte addByte ldReg orReg andReg xorReg addReg subReg shrReg subnReg
    shlReg sneReg ldI rnd drw skp sknp ldVxDt ldVxK ldDtVx ldStVx addI ldF ldB ldMemVx ldVxMem

end

theorem exists_row_of_encode (i : Instr) :
    ∃ r, opcodeTable[i.rowIndex]? = some r ∧ encode i &&& r.mask = r.pattern := by
  obtain ⟨r, hr, hm⟩ := Option.map_eq_some_iff.1 (encode_matches_row i)
  exact ⟨r, hr, of_decide_eq_true hm⟩

theorem eq_of_and_mask_word {w p : Word} (h : w &&& 0xFFFF#16 = p) : w = p :=
  BitVec.and_allOnes.symm.trans h

theorem fieldOp_eq_of_and_mask_op {w p : Word} (h : w &&& 0xF000#16 = p) : fieldOp w = fieldOp p := by
  rw [← h, and_mask_op, fieldOp_formatA]

theorem fields_eq_of_and_mask_op_n {w p : Word} (h : w &&& 0xF00F#16 = p) :
    fieldOp w = fieldOp p ∧ fieldN w = fieldN p := by
  rw [← h, and_mask_op_n, fieldOp_formatXY, fieldN_formatXY]
  exact ⟨rfl, rfl⟩

theorem fields_eq_of_and_mask_op_nn {w p : Word} (h : w &&& 0xF0FF#16 = p) :
    fieldOp w = fieldOp p ∧ fieldNN w = fieldNN p := by
  rw [← h, and_mask_op_nn, fieldOp_formatX, fieldNN_formatX]
  exact ⟨rfl, rfl⟩

/-- A word that matches a row has the fields the row compares, and these are what the decoder dispatches on. The rows are
grouped by their mask and by the decoder they reach. -/
theorem exists_decode_of_row {w : Word} {n : Nat} {r : OpcodeRow} (hr : opcodeTable[n]? = some r)
    (hm : w &&& r.mask = r.pattern) : ∃ i, decode w = .instr i ∧ i.rowIndex = n := by
  match n with
  | 0 | 1 =>
    cases hr
    rw [eq_of_and_mask_word hm]
    exact ⟨_, rfl, rfl⟩
  | 2 | 3 | 4 | 5 | 7 | 8 | 19 | 20 | 21 =>
    cases hr
    rw [decode, fieldOp_eq_of_and_mask_op hm]
    exact ⟨_, rfl, rfl⟩
  | 6 | 18 =>
    cases hr
    obtain ⟨hop, hn⟩ := fields_eq_of_and_mask_op_n hm
    rw [decode, hop, hn]
    exact ⟨_, rfl, rfl⟩
  | 9 | 10 | 11 | 12 | 13 | 14 | 15 | 16 | 17 =>
    cases hr
    obtain ⟨hop, hn⟩ := fields_eq_of_and_mask_op_n hm
    rw [decode, hop, decode8, hn]
    exact ⟨_, rfl, rfl⟩
  | 22 | 23 =>
    cases hr
    obtain ⟨hop, hnn⟩ := fields_eq_of_and_mask_op_nn hm
    rw [decode, hop, decodeE, hnn]
    exact ⟨_, rfl, rfl⟩
  | 24 | 25 | 26 | 27 | 28 | 29 | 30 | 31 | 32 =>
    cases hr
    obtain ⟨hop, hnn⟩ := fields_eq_of_and_mask_op_nn hm
    rw [decode, hop, decodeF, hnn]
    exact ⟨_, rfl, rfl⟩
  | _ + 33 => cases hr

/-! ## The unrecognised words -/

theorem fieldOp_eq_iff {w : Word} {op : BitVec 4} : fieldOp w = op ↔ w.toNat / 4096 = op.toNat := by
  have := w.isLt
  rw [← BitVec.toNat_inj, fieldOp_toNat, Nat.mod_eq_of_lt (by omega)]

theorem fieldN_eq_iff {w : Word} {n : Nibble} : fieldN w = n ↔ w.toNat % 16 = n.toNat := by
  rw [← BitVec.toNat_inj, fieldN_toNat]

theorem fieldNN_eq_iff {w : Word} {nn : Byte} : fieldNN w = nn ↔ w.toNat % 256 = nn.toNat := by
  rw [← BitVec.toNat_inj, fieldNN_toNat]

theorem decode0_rejected_iff (w : Word) :
    (∃ why, decode0 w = .rejected why) ↔ w.toNat ≠ 0x00E0 ∧ w.toNat ≠ 0x00EE := by
  unfold decode0
  split
  · next hw => simp [hw]
  · split <;> simp_all [← BitVec.toNat_inj]

theorem decode8_rejected_iff (w : Word) :
    (∃ why, decode8 w = .rejected why) ↔ w.toNat % 16 ∈ [0x8, 0x9, 0xA, 0xB, 0xC, 0xD, 0xF] := by
  unfold decode8
  split
  case h_10 =>
    simp_all [fieldN_eq_iff]
    omega
  all_goals next hn => simp [fieldN_eq_iff.1 hn]

theorem decodeE_rejected_iff (w : Word) :
    (∃ why, decodeE w = .rejected why) ↔ w.toNat % 256 ∉ [0x9E, 0xA1] := by
  unfold decodeE
  split
  case h_3 => simp_all [fieldNN_eq_iff]
  all_goals next hnn => simp [fieldNN_eq_iff.1 hnn]

theorem decodeF_rejected_iff (w : Word) :
    (∃ why, decodeF w = .rejected why) ↔
      w.toNat % 256 ∉ [0x07, 0x0A, 0x15, 0x18, 0x1E, 0x29, 0x33, 0x55, 0x65] := by
  unfold decodeF
  split
  case h_10 => simp_all [fieldNN_eq_iff]
  all_goals next hnn => simp [fieldNN_eq_iff.1 hnn]

/-! ## The assembler on the line that writes an instruction -/

@[simp] theorem asReg_val (x : Reg) : asReg x.val = some x := dif_pos x.isLt

@[simp] theorem asBits_toNat {k : Nat} (b : BitVec k) : asBits k b.toNat = some b := by
  rw [asBits, if_pos b.isLt, BitVec.ofNat_toNat, BitVec.setWidth_eq]

@[simp] theorem asmRegByte_val (mk : Reg → Byte → Instr) (x : Reg) (nn : Byte) :
    asmRegByte mk x.val nn.toNat = some (mk x nn) := by
  simp [asmRegByte]

@[simp] theorem asmRegReg_val (mk : Reg → Reg → Instr) (x y : Reg) :
    asmRegReg mk x.val y.val = some (mk x y) := by
  simp [asmRegReg]

theorem assemble_toAsm (i : Instr) : assemble i.toAsm = some i := by
  cases i with
  | cls | ret => rfl
  | seByte | sneByte | ldByte | addByte | rnd => exact asmRegByte_val ..
  | seReg | sneReg | ldReg | orReg | andReg | xorReg | addReg | subReg | shrReg | subnReg | shlReg =>
    exact asmRegReg_val ..
  | jp | call | ldI | drw | skp | sknp | ldVxDt | ldVxK | ldDtVx | ldStVx | addI | ldF | ldB | ldMemVx | ldVxMem =>
    simp [Instr.toAsm, assemble]

/-! ## The lines that assemble -/

@[simp] theorem isSome_asReg (n : Nat) : (asReg n).isSome = isReg n := by
  unfold asReg isReg
  split <;> simp [*]

theorem isSome_asBits (k n : Nat) : (asBits k n).isSome = decide (n < 2 ^ k) := by
  unfold asBits
  split <;> simp [*]

@[simp] theorem isSome_asBits_addr (n : Nat) : (asBits 12 n).isSome = isAddr n := isSome_asBits 12 n
@[simp] theorem isSome_asBits_byte (n : Nat) : (asBits 8 n).isSome = isByte n := isSome_asBits 8 n
@[simp] theorem isSome_asBits_nibble (n : Nat) : (asBits 4 n).isSome = isNibble n := isSome_asBits 4 n

/-- Whether the second operand is read does not depend on the value of the first. -/
theorem isSome_bind_of_const {α β : Type} {o : Option α} {f : α → Option β} {b : Bool} (h : ∀ a, (f a).isSome = b) :
    (o.bind f).isSome = (o.isSome && b) := by
  cases o <;> simp [h]

@[simp] theorem isSome_asmRegByte (mk : Reg → Byte → Instr) (x n : Nat) :
    (asmRegByte mk x n).isSome = (isReg x && isByte n) := by
  rw [asmRegByte, isSome_bind_of_const (b := isByte n)] <;> simp

@[simp] theorem isSome_asmRegReg (mk : Reg → Reg → Instr) (x y : Nat) :
    (asmRegReg mk x y).isSome = (isReg x && isReg y) := by
  rw [asmRegReg, isSome_bind_of_const (b := isReg y)] <;> simp

@[simp] theorem isSome_asmDrw (x y n : Nat) :
    ((asReg x).bind fun rx => (asReg y).bind fun ry => (asBits 4 n).map (Instr.drw rx ry)).isSome =
      (isReg x && isReg y && isNibble n) := by
  rw [isSome_bind_of_const (b := isReg y && isNibble n), isSome_asReg, Bool.and_assoc]
  intro rx
  rw [isSome_bind_of_const (b := isNibble n)] <;> simp

/-- On each operand shape of the map the assembler reads exactly the operands that well-formedness checks; on any other
line both give up. -/
theorem isSome_assemble (l : AsmLine) : (assemble l).isSome = l.wellFormed := by
  unfold assemble
  split <;> simp [AsmLine.wellFormed]

end Sys2Proof

namespace Sys2Proof.Machine

open Sys2Proof

/-! ## The cycle -/

theorem execWord_of_instr {w : Word} {i : Instr} (h : decode w = .instr i) (s : State) :
    execWord w s = exec i s := by
  rw [execWord, h]

theorem execWord_of_rejected {w : Word} {why : Unrecognised} (h : decode w = .rejected why) (s : State) :
    execWord w s = unknownWord w s := by
  rw [execWord, h]

theorem unknownEvents_of_rejected {w : Word} {why : Unrecognised} (h : decode w = .rejected why) (s : State) :
    unknownEvents w s = [.unknown s.pc w] := by
  rw [unknownEvents, h]

theorem unknownWord_of_strict (w : Word) (s : State) (h : s.strict = true) :
    unknownWord w s = .next (s.raise .unknownInstruction s.pc0 w 0) :=
  if_pos h

theorem unknownWord_of_not_strict (w : Word) (s : State) (h : s.strict = false) : unknownWord w s = .next s := by
  rw [unknownWord, h]
  rfl

@[simp] theorem State.pc0_advance (s : State) : s.advance.pc0 = s.pc := BitVec.add_sub_cancel ..

/-- The turn of a STEP that fetches: the fetched word is run on the state whose schedule has moved on and whose `PC` has
been advanced (R60). -/
theorem step_of_ready {s : State} (h : s.ready) : step s = execWord s.nextWord s.issue.advance := by
  obtain ⟨hstep, hcause, hpc⟩ := h
  rw [step_of_next_step hstep]
  rcases stepCommand_cases s.issue with ⟨hhalted, -⟩ | ⟨-, hout, -⟩ | ⟨-, -, e⟩
  · exact absurd hcause hhalted
  · rw [State.issue_pc] at hout
    omega
  · exact e

/-- The outputs of such a turn (R235, R236). -/
theorem outputs_of_ready {s : State} (h : s.ready) :
    outputs s = traceEvents s.nextWord s ++ unknownEvents s.nextWord s := by
  obtain ⟨hstep, hcause, hpc⟩ := h
  rw [outputs, hstep, commandOutputs, stepOutputs, State.halted_eq_false.2 hcause, fetch_word hpc]
  rfl

/-! ## Every turn returns -/

/-- No instruction ends in a fault or a refusal of the model: those with two outcomes have a next state in both. -/
theorem exists_next_of_exec (i : Instr) (s : State) : ∃ t, exec i s = .next t := by
  have hrange (count : Nat) (u : State) : ∃ t, withRange i count s u = .next t := by
    rcases withRange_cases i count s u with ⟨-, e⟩ | ⟨-, -, e⟩ <;> exact ⟨_, e⟩
  have hkey (wanted : Bool) (b : Byte) : ∃ t, skipOnKey i wanted b s = .next t := by
    rcases skipOnKey_cases i wanted b s with ⟨_, e⟩ | ⟨-, e⟩ <;> exact ⟨_, e⟩
  cases i with
  | ret => rcases execRet_cases s with ⟨_, e⟩ | ⟨-, e⟩ <;> exact ⟨_, e⟩
  | call nnn => rcases execCall_cases nnn s with ⟨_, e⟩ | ⟨-, e⟩ <;> exact ⟨_, e⟩
  | ldVxK x => rcases execLdVxK_cases x s with ⟨_, -, e⟩ | ⟨-, e⟩ <;> exact ⟨_, e⟩
  | skp | sknp => exact hkey ..
  | drw | ldB | ldMemVx | ldVxMem => exact hrange ..
  | cls | jp | seByte | sneByte | seReg | ldByte | addByte | ldReg | orReg | andReg | xorReg | addReg | subReg | shrReg
    | subnReg | shlReg | sneReg | ldI | rnd | ldVxDt | ldDtVx | ldStVx | addI | ldF => exact ⟨_, rfl⟩

theorem schedule_notMem_writesParts (i : Instr) : Part.schedule ∉ writesParts i := by
  cases i <;> simp [writesParts]

theorem schedule_of_exec {i : Instr} {s t : State} (h : exec i s = .next t) : t.schedule = s.schedule :=
  (onlyChanges_exec h).2 .schedule (schedule_notMem_writesParts i)

theorem execWord_returns (w : Word) (s : State) : ∃ t, execWord w s = .next t ∧ t.schedule = s.schedule := by
  cases hw : decode w with
  | instr i =>
    obtain ⟨t, e⟩ := exists_next_of_exec i s
    exact ⟨t, (execWord_of_instr hw s).trans e, schedule_of_exec e⟩
  | rejected =>
    rw [execWord_of_rejected hw]
    rcases unknownWord_cases w s with ⟨-, e⟩ | ⟨-, e⟩ <;> exact ⟨_, e, rfl⟩

theorem stepCommand_returns (s : State) : ∃ t, stepCommand s = .next t ∧ t.schedule = s.schedule := by
  rcases stepCommand_cases s with ⟨-, e⟩ | ⟨-, -, e⟩ | ⟨-, -, e⟩
  · exact ⟨_, e, rfl⟩
  · exact ⟨_, e, rfl⟩
  · rw [e]
    exact execWord_returns _ s.advance

theorem runCommand_returns (c : Command) (s : State) : ∃ t, runCommand c s = .next t ∧ t.schedule = s.schedule := by
  cases c with
  | step => exact stepCommand_returns s
  | reset => exact ⟨_, rfl, rfl⟩
  | load bytes => exact ⟨_, rfl, loadCommand_schedule bytes s⟩
  | setKeys keys => exact ⟨_, rfl, setKeysCommand_schedule keys s⟩
  | tick => exact ⟨_, rfl, tickCommand_schedule s⟩

end Sys2Proof.Machine

/-! ## The obligations -/

namespace Sys2Proof.Proofs

open Sys2Proof Sys2Proof.Machine

/-- Settles O2: each decoder reads back the fields of its format. -/
theorem decodeOfEncode : Obligations.DecodeOfEncode := decode_encode

/-- Settles O3: each arm of the decoder has compared or kept every field of the word. -/
theorem encodeOfDecode : Obligations.EncodeOfDecode := fun _ _ => encode_of_decode

/-- Settles O4: a decoded word is the word of its instruction, which matches its own row; and a matching word has the
fields the decoder dispatches on. -/
theorem decodeIsTheOpcodeMap : Obligations.DecodeIsTheOpcodeMap := by
  refine ⟨fun w i h => ?_, fun _ _ _ => exists_decode_of_row⟩
  rw [← encode_of_decode h]
  exact exists_row_of_encode i

/-- Settles O5, family by family: the cases are 0 to F in order, but that B, reached when no other is, comes last. -/
theorem unrecognisedWordsAreThoseListed : Obligations.UnrecognisedWordsAreThoseListed := by
  intro w
  unfold decode
  split
  case h_1 hop => simp [fieldOp_eq_iff.1 hop, decode0_rejected_iff]
  case h_6 hop | h_10 hop => split <;> simp_all [fieldOp_eq_iff, fieldN_eq_iff]
  case h_9 hop => simp [fieldOp_eq_iff.1 hop, decode8_rejected_iff]
  case h_14 hop => simp [fieldOp_eq_iff.1 hop, decodeE_rejected_iff]
  case h_15 hop => simp [fieldOp_eq_iff.1 hop, decodeF_rejected_iff]
  case h_16 =>
    have := w.isLt
    simp_all [fieldOp_eq_iff]
    omega
  all_goals next hop => simp [fieldOp_eq_iff.1 hop]

/-- Settles O7: the assembler's operand readers succeed exactly on the ranges that well-formedness checks. -/
theorem assemblesExactlyWellFormedLines : Obligations.AssemblesExactlyWellFormedLines := isSome_assemble

/-- Settles O6: a line that assembles is well-formed (O7), and the line of an instruction assembles to it. -/
theorem assemblerReadsBack : Obligations.AssemblerReadsBack := by
  intro i
  have hread := assemble_toAsm i
  refine ⟨?_, hread⟩
  rw [Instr.wellFormed, ← isSome_assemble, hread]
  rfl

/-- Settles O13: every command returns and leaves the schedule the host's issuing has left. -/
theorem everyTurnReturns : Obligations.EveryTurnReturns := fun s => runCommand_returns s.nextCommand s.issue

/-- Settles O1, on the eighteen fixed words. -/
theorem specWordsDecode : Obligations.SpecWordsDecode := by
  unfold Obligations.SpecWordsDecode
  decide

/-- Settles O8: the advanced state of `step_of_ready` is the state of the statement. -/
theorem stepRunsTheDecodedInstruction : Obligations.StepRunsTheDecodedInstruction := by
  intro s i hready hi
  rw [step_of_ready hready, execWord_of_instr hi]
  rfl

/-- Settles O10: the event stands after the trace event in both modes; `STRICT` decides between the advance alone and the
fault, whose `pc` is the `PC` before the advance. -/
theorem unrecognisedWord : Obligations.UnrecognisedWord := by
  intro s why hready hw
  rw [outputs_of_ready hready, step_of_ready hready, execWord_of_rejected hw, unknownEvents_of_rejected hw]
  refine ⟨List.mem_append_right _ (List.mem_singleton_self _), fun hstrict => ?_, fun hstrict => ?_⟩
  · rw [unknownWord_of_not_strict _ s.issue.advance hstrict]
    rfl
  · rw [unknownWord_of_strict _ s.issue.advance hstrict, State.pc0_advance]
    rfl

end Sys2Proof.Proofs

/-! SUPPORT and PROOFS for the family 40_control_flow.md: jump, call and return (O20 to O23) and the compare skips (O24). -/

namespace Sys2Proof.Machine

open Sys2Proof

/-! ## Call and return -/

@[simp] theorem toNat_zext16 (nnn : Addr12) : (zext16 nnn).toNat = nnn.toNat :=
  BitVec.toNat_setWidth_of_le (by decide)

theorem exec_call_of_lt {s : State} (h : s.sp.val < 16) (nnn : Addr12) :
    exec (.call nnn) s = .next ((s.push h).jump (zext16 nnn)) :=
  dif_pos h

theorem exec_ret_of_ne_zero {s : State} (h : s.sp.val ≠ 0) : exec .ret s = .next (s.pop h) :=
  dif_neg h

/-- The pushed entry is the `PC` (R104). -/
theorem State.getElem?_stack_push (s : State) (h : s.sp.val < 16) : (s.push h).stack[s.sp.val]? = some s.pc :=
  Vector.getElem?_set_self h

theorem State.getElem_stack_push_of_ne (s : State) (h : s.sp.val < 16) {k : Fin 16} (hk : k.val ≠ s.sp.val) :
    (s.push h).stack[k] = s.stack[k] :=
  Vector.getElem_set_ne h k.isLt hk.symm

/-- The `PC` after a pop is the entry at the new `SP` (R100). -/
theorem State.getElem?_stack_sp_pop (s : State) (h : s.sp.val ≠ 0) :
    s.stack[(s.pop h).sp.val]? = some (s.pop h).pc :=
  Vector.getElem?_eq_getElem _

/-! ## The compare skips -/

theorem State.toNat_pc_skipIf (c : Bool) (s : State) :
    (s.skipIf c).pc.toNat = if c then (s.pc.toNat + 2) % 65536 else s.pc.toNat := by
  cases c with
  | false => rfl
  | true => exact BitVec.toNat_add s.pc 2#16

/-- What an instruction that is a skip on `c` does, for a condition `p` that `c` decides. -/
theorem exists_next_of_exec_skipIf {i : Instr} {s : State} {c : Bool} {p : Prop} [Decidable p]
    (he : exec i s = .next (s.skipIf c)) (hc : c = true ↔ p) :
    ∃ t, exec i s = .next t ∧ OnlyChanges [] [.pc] s t ∧
      t.pc.toNat = if p then (s.pc.toNat + 2) % 65536 else s.pc.toNat := by
  refine ⟨_, he, onlyChanges_skipIf c s, ?_⟩
  simp only [State.toNat_pc_skipIf, hc]

theorem beq_byte_iff {a b : Byte} : (a == b) = true ↔ a.toNat = b.toNat := beq_iff_eq.trans BitVec.toNat_inj.symm

theorem bne_byte_iff {a b : Byte} : (a != b) = true ↔ a.toNat ≠ b.toNat := bne_iff_ne.trans BitVec.toNat_ne_iff_ne.symm

end Sys2Proof.Machine

/-! ## The obligations -/

namespace Sys2Proof.Proofs

open Sys2Proof Sys2Proof.Machine

/-- Settles O20: a jump writes `PC` alone. -/
theorem jpSetsPc : Obligations.JpSetsPc :=
  fun s nnn => ⟨_, rfl, toNat_zext16 nnn, onlyChanges_jump s _⟩

/-- Settles O21: a push at `SP`, then a jump, which leaves the stack alone. -/
theorem callPushesAndJumps : Obligations.CallPushesAndJumps := by
  intro s nnn hsp
  exact ⟨_, exec_call_of_lt hsp nnn, s.getElem?_stack_push hsp, rfl, toNat_zext16 nnn,
    fun _ => s.getElem_stack_push_of_ne hsp,
    ((onlyChanges_push s hsp).trans (onlyChanges_jump _ _)).mono (List.Subset.refl _) (by simp)⟩

/-- Settles O22: a pop reads the entry at the new `SP` and writes no entry. -/
theorem retPopsPc : Obligations.RetPopsPc :=
  fun s hsp => ⟨_, exec_ret_of_ne_zero hsp, Nat.succ_pred hsp, s.getElem?_stack_sp_pop hsp, onlyChanges_pop s hsp⟩

/-- Settles O23: the RET takes away the 1 the CALL added to `SP` (O21, O22), so it reads the entry the CALL wrote. -/
theorem callThenReturn : Obligations.CallThenReturn := by
  intro s t u nnn hsp hcall hstack husp
  obtain ⟨t', hcall', hpushed, htsp, -, -, -⟩ := callPushesAndJumps s nnn hsp
  cases hcall.symm.trans hcall'
  obtain ⟨r, hret, hrsp, hpopped, -, hkept⟩ := retPopsPc u (by omega)
  have hrs : r.sp = s.sp := by
    rw [husp] at hrsp
    omega
  have hpc : some r.pc = some s.pc := by
    rw [← hpopped, ← hpushed, hstack, hrs]
  exact ⟨r, hret, Option.some.inj hpc, hrs, (hkept .stack (by decide)).trans hstack⟩

/-- Settles O24: each of the four is a skip on its comparison. -/
theorem compareSkips : Obligations.CompareSkips :=
  ⟨fun _ _ _ => exists_next_of_exec_skipIf rfl beq_byte_iff, fun _ _ _ => exists_next_of_exec_skipIf rfl bne_byte_iff,
    fun _ _ _ => exists_next_of_exec_skipIf rfl beq_byte_iff, fun _ _ _ => exists_next_of_exec_skipIf rfl bne_byte_iff⟩

end Sys2Proof.Proofs

/-! SUPPORT and PROOFS for the family 41_alu.md: the instructions that write one register and no flag (O25 to O27), and those
that write a result and a flag (O28 to O30). -/

namespace Sys2Proof.Machine

open Sys2Proof

/-! ## The values of the flags -/

/-- The flag of ADD (R132). -/
theorem toNat_flagByte_carryOut (a b : Byte) :
    (flagByte (carryOut a b)).toNat = if a.toNat + b.toNat > 255 then 1 else 0 := by
  simp [flagByte_toNat, carryOut]

/-- The flag of SUB and SUBN (R134, R138). -/
theorem toNat_flagByte_noBorrow (a b : Byte) :
    (flagByte (noBorrow a b)).toNat = if a.toNat ≥ b.toNat then 1 else 0 := by
  simp [flagByte_toNat, noBorrow]

theorem toNat_flagByte_eq_toNat (b : Bool) : (flagByte b).toNat = b.toNat := by cases b <;> rfl

/-- The flag of SHR (R136). -/
theorem toNat_flagByte_shrOut (a : Byte) : (flagByte (shrOut a)).toNat = a.toNat % 2 := by
  rw [toNat_flagByte_eq_toNat, shrOut, BitVec.getLsbD, Nat.toNat_testBit, Nat.pow_zero, Nat.div_one]

/-- The flag of SHL (R140): bit 7 is the highest, so no `% 2` is left. -/
theorem toNat_flagByte_shlOut (a : Byte) : (flagByte (shlOut a)).toNat = a.toNat / 128 := by
  have ha : a.toNat < 256 := a.isLt
  rw [toNat_flagByte_eq_toNat, shlOut, BitVec.getLsbD, Nat.toNat_testBit]
  omega

/-! ## The values of the results -/

theorem toNat_sub_byte (a b : Byte) : (a - b).toNat = (a.toNat + 256 - b.toNat) % 256 := by
  bv_omega

theorem toNat_shiftRight_one (a : Byte) : (a >>> 1).toNat = a.toNat / 2 := by
  rw [BitVec.toNat_ushiftRight, Nat.shiftRight_one]

theorem toNat_shiftLeft_one (a : Byte) : (a <<< 1).toNat = a.toNat * 2 % 256 := by
  rw [BitVec.toNat_shiftLeft, Nat.shiftLeft_eq, Nat.pow_one]

/-! ## What the two kinds of write do -/

/-- What an instruction that writes `b` to `x` and nothing else does, for the eight bits of `b`. -/
theorem exists_next_of_exec_setReg {i : Instr} {s : State} {x : Reg} {b : Byte} {bit : Nat → Bool}
    (he : exec i s = .next (s.setReg x b)) (hbit : ∀ k < 8, b.getLsbD k = bit k) :
    ∃ t, exec i s = .next t ∧ OnlyChanges [x] [] s t ∧ ∀ k < 8, (t.reg x).getLsbD k = bit k :=
  ⟨_, he, onlyChanges_setReg s x b, by rwa [State.reg_setReg_self]⟩

theorem State.reg_flagReg_setResultAndFlag (s : State) (x : Reg) (r : Byte) (f : Bool) :
    (s.setResultAndFlag .flagLast x r f).reg Config.flagReg = flagByte f := by
  rw [State.reg_setResultAndFlag, if_pos rfl]

theorem State.reg_setResultAndFlag_of_ne (s : State) {x : Reg} (hx : x ≠ Config.flagReg) (r : Byte) (f : Bool) :
    (s.setResultAndFlag .flagLast x r f).reg x = r := by
  rw [State.reg_setResultAndFlag, if_neg hx, if_pos rfl]

/-- What an instruction that writes the result `r` to `x` and then the flag `f` to `VF` does, with both values as numbers
(R121). -/
theorem exists_next_of_exec_setResultAndFlag {i : Instr} {s : State} {x : Reg} {r : Byte} {f : Bool} {result flag : Nat}
    (he : exec i s = .next (s.setResultAndFlag .flagLast x r f)) (hflag : (flagByte f).toNat = flag)
    (hresult : r.toNat = result) :
    ∃ t, exec i s = .next t ∧ OnlyChanges [x, 15] [] s t ∧ (t.reg 15).toNat = flag ∧
      (x ≠ 15 → (t.reg x).toNat = result) :=
  ⟨_, he, onlyChanges_setResultAndFlag s x r f,
    (congrArg BitVec.toNat (s.reg_flagReg_setResultAndFlag x r f)).trans hflag,
    fun hx => (congrArg BitVec.toNat (s.reg_setResultAndFlag_of_ne hx r f)).trans hresult⟩

end Sys2Proof.Machine

/-! ## The obligations -/

namespace Sys2Proof.Proofs

open Sys2Proof Sys2Proof.Machine

/-- Settles O25: either load is one register write. -/
theorem registerLoads : Obligations.RegisterLoads :=
  ⟨fun s x nn => ⟨_, rfl, s.reg_setReg_self x nn, onlyChanges_setReg s x nn⟩,
    fun s x y => ⟨_, rfl, s.reg_setReg_self x (s.reg y), onlyChanges_setReg s x (s.reg y)⟩⟩

/-- Settles O26: one register write, of a sum of bytes, which wraps. -/
theorem addByteWraps : Obligations.AddByteWraps := by
  intro s x nn
  refine ⟨_, rfl, ?_, onlyChanges_setReg s x (s.reg x + nn)⟩
  rw [State.reg_setReg_self, BitVec.toNat_add]

/-- Settles O27: each of the three is one register write, of a value known bit by bit. -/
theorem bitwiseOperations : Obligations.BitwiseOperations :=
  ⟨fun _ _ _ => exists_next_of_exec_setReg rfl fun _ _ => BitVec.getLsbD_or,
    fun _ _ _ => exists_next_of_exec_setReg rfl fun _ _ => BitVec.getLsbD_and,
    fun _ _ _ => exists_next_of_exec_setReg rfl fun _ _ => BitVec.getLsbD_xor⟩

/-- Settles O28: the flag is the carry out. -/
theorem addSetsCarry : Obligations.AddSetsCarry :=
  fun _ _ _ => exists_next_of_exec_setResultAndFlag rfl (toNat_flagByte_carryOut _ _) (BitVec.toNat_add _ _)

/-- Settles O29: in both orders the flag is no borrow. -/
theorem subtractSetsNoBorrow : Obligations.SubtractSetsNoBorrow :=
  ⟨fun _ _ _ => exists_next_of_exec_setResultAndFlag rfl (toNat_flagByte_noBorrow _ _) (toNat_sub_byte _ _),
    fun _ _ _ => exists_next_of_exec_setResultAndFlag rfl (toNat_flagByte_noBorrow _ _) (toNat_sub_byte _ _)⟩

/-- Settles O30: the flag is the bit shifted out, as a number. -/
theorem shiftsSetTheBitShiftedOut : Obligations.ShiftsSetTheBitShiftedOut :=
  ⟨fun _ _ _ => exists_next_of_exec_setResultAndFlag rfl (toNat_flagByte_shrOut _) (toNat_shiftRight_one _),
    fun _ _ _ => exists_next_of_exec_setResultAndFlag rfl (toNat_flagByte_shlOut _) (toNat_shiftLeft_one _)⟩

end Sys2Proof.Proofs

/-! SUPPORT and PROOFS for the family 42_index_memory.md: the instructions that write `I` (O31, O32), the two stores (O33,
O34) and the bulk load (O35). -/

namespace Sys2Proof.Machine

open Sys2Proof

/-! ## The index register -/

theorem toNat_add_setWidth_byte (a : Word) (b : Byte) :
    (a + b.setWidth 16).toNat = (a.toNat + b.toNat) % 65536 := by
  rw [BitVec.toNat_add, BitVec.toNat_setWidth_of_le (by decide)]

/-- A glyph address is below 2 ^ 16, so nothing wraps (R154). -/
theorem toNat_glyphAddress_digitOf (b : Byte) : (glyphAddress (digitOf b)).toNat = 0x050 + 5 * (b.toNat % 16) := by
  have hwrap : 0x050 + 5 * (b.toNat % 16) < 2 ^ 16 := by omega
  exact Nat.mod_eq_of_lt hwrap

/-- What an instruction that writes `a` to `I` and nothing else does, with `a` as a number. -/
theorem exists_next_of_exec_index {i : Instr} {s : State} {a : Word} {n : Nat}
    (he : exec i s = .next { s with i := a }) (ha : a.toNat = n) :
    ∃ t, exec i s = .next t ∧ t.i.toNat = n ∧ OnlyChanges [] [.index] s t :=
  ⟨_, he, ha, onlyChanges_index s a⟩

/-! ## The stores -/

/-- A digit of a byte in base ten is itself a byte, so nothing is cut off (R156). -/
theorem toNat_ofNat_byte_of_lt_ten {d : Nat} (h : d < 10) : (BitVec.ofNat 8 d).toNat = d :=
  Nat.mod_eq_of_lt (by omega)

/-- What an instruction that stores the bytes `bs` from `I` upwards does when they fit: the bytes are read back in order, and
no other byte and no other part changes (R45, R149). -/
theorem exists_next_of_exec_writeBytes {i : Instr} {s : State} {bs : List Byte} (hwf : Memory.wf s.mem)
    (hfit : s.i.toNat + bs.length ≤ 4096)
    (he : exec i s = withRange i bs.length s { s with mem := s.mem.writeBytes s.i.toNat bs }) :
    ∃ t, exec i s = .next t ∧ (∀ k < bs.length, t.mem.read (s.i.toNat + k) = bs.getD k 0) ∧
      MemorySameOutside s.i.toNat bs.length s t ∧ OnlyChanges [] [.memory] s t := by
  refine ⟨_, he.trans (withRange_fits (.inr hfit)), fun k hk => ?_, fun a ha => ?_, onlyChanges_memory s _⟩
  · rw [Memory.read_writeBytes hwf hfit, if_pos (by omega), Nat.add_sub_cancel_left]
  · rw [Memory.read_writeBytes hwf hfit, if_neg ha]

/-! ## The bulk load -/

theorem exec_ldVxMem_of_fits {s : State} {x : Reg} (hfit : s.i.toNat + x.val ≤ 0xFFF) :
    exec (.ldVxMem x) s = .next (s.loadRegs s.i.toNat x) :=
  withRange_fits (.inr (by unfold regCount; omega))

end Sys2Proof.Machine

/-! ## The obligations -/

namespace Sys2Proof.Proofs

open Sys2Proof Sys2Proof.Machine

/-- Settles O31: each is one write of `I`, the second of a sum of words, which wraps. -/
theorem indexWrites : Obligations.IndexWrites :=
  ⟨fun _ nnn => exists_next_of_exec_index rfl (toNat_zext16 nnn),
    fun s x => exists_next_of_exec_index rfl (toNat_add_setWidth_byte s.i (s.reg x))⟩

/-- Settles O32: one write of `I`, of the glyph's address. -/
theorem fontGlyphAddress : Obligations.FontGlyphAddress :=
  fun s x => exists_next_of_exec_index rfl (toNat_glyphAddress_digitOf (s.reg x))

/-- Settles O33: the store of the three digits, each of which is below ten. -/
theorem decimalDigitsStored : Obligations.DecimalDigitsStored := by
  intro s x hwf hfit
  have hbyte : (s.reg x).toNat < 256 := (s.reg x).isLt
  have hfit' : s.i.toNat + (decimalDigits (s.reg x)).length ≤ 4096 := Nat.succ_le_succ hfit
  obtain ⟨t, hrun, hread, houtside, hframe⟩ := exists_next_of_exec_writeBytes (i := .ldB x) hwf hfit' rfl
  have hhundreds : t.mem.read s.i.toNat = BitVec.ofNat 8 ((s.reg x).toNat / 100) := hread 0 (by decide : 0 < 3)
  have htens : t.mem.read (s.i.toNat + 1) = BitVec.ofNat 8 ((s.reg x).toNat / 10 % 10) := hread 1 (by decide : 1 < 3)
  have hones : t.mem.read (s.i.toNat + 2) = BitVec.ofNat 8 ((s.reg x).toNat % 10) := hread 2 (by decide : 2 < 3)
  refine ⟨t, hrun, ?_, ?_, ?_, houtside, hframe⟩
  · rw [hhundreds, toNat_ofNat_byte_of_lt_ten (by omega)]
  · rw [htens, toNat_ofNat_byte_of_lt_ten (by omega)]
  · rw [hones, toNat_ofNat_byte_of_lt_ten (by omega)]

/-- Settles O34: the store of `V[0]` to `V[X]`; what it leaves in its range is `read_of_exec_ldMemVx`. -/
theorem bulkStore : Obligations.BulkStore := by
  intro s x hwf hfit
  have hlen : (s.regsUpTo x).length = x.val + 1 := s.length_regsUpTo x
  have hrange : exec (.ldMemVx x) s = withRange (.ldMemVx x) (s.regsUpTo x).length s
      { s with mem := s.mem.writeBytes s.i.toNat (s.regsUpTo x) } := by
    rw [hlen]
    rfl
  obtain ⟨t, hrun, -, houtside, hframe⟩ := exists_next_of_exec_writeBytes hwf (by omega) hrange
  rw [hlen] at houtside
  exact ⟨t, hrun, fun _ hk => read_of_exec_ldMemVx hwf hfit hrun hk, houtside, hframe⟩

/-- Settles O35: the load of `V[0]` to `V[X]` leaves the registers above X alone. -/
theorem bulkLoad : Obligations.BulkLoad := by
  intro s x hfit
  refine ⟨_, exec_ldVxMem_of_fits hfit, fun k hk => ?_, fun k hk => ?_, onlyChanges_loadRegs s s.i.toNat x⟩
  · rw [State.reg_loadRegs, if_pos hk]
  · rw [State.reg_loadRegs, if_neg (not_le.2 hk)]

end Sys2Proof.Proofs

/-! SUPPORT and PROOFS for the family 43_display.md: CLS (O37), what DRW does in closed form (O38), the second draw of a sprite
(O39) and the wrap at the right edge (O40). -/

namespace Sys2Proof.Machine

open Sys2Proof

/-! ## The sprite in memory -/

/-- The rows DRW reads cover the pixels that the sprite at their address covers (R173). -/
theorem rowsCover_readBytes_iff {m : Memory} {base n ox oy : Nat} {px : Fin 64} {py : Fin 32} :
    rowsCover (m.readBytes base n) ox oy px py ↔ spriteCovers m base n ox oy px py := by
  constructor
  · rintro ⟨row, hrow, hy, bit, hbit, hx, hset⟩
    rw [Memory.getElem_readBytes] at hset
    rw [Memory.length_readBytes] at hrow
    exact ⟨row, hrow, bit, hbit, hx, hy, hset⟩
  · rintro ⟨row, hrow, bit, hbit, hx, hy, hset⟩
    refine ⟨row, (m.length_readBytes base n).symm ▸ hrow, hy, bit, hbit, hx, ?_⟩
    rw [Memory.getElem_readBytes]
    exact hset

theorem spriteCovers_congr {m m' : Memory} (h : ∀ a, m'.read a = m.read a) (base n ox oy : Nat) :
    spriteCovers m' base n ox oy = spriteCovers m base n ox oy := by
  unfold spriteCovers
  simp only [h]

/-- A byte that is not 0 has a 1 bit, counted from the left as DRW counts. -/
theorem exists_getLsbD_of_byte_ne_zero {b : Byte} (h : b ≠ 0) : ∃ bit < 8, b.getLsbD (7 - bit) = true := by
  by_contra hno
  refine h (BitVec.eq_of_getLsbD_eq fun k hk => ?_)
  have hclear : b.getLsbD k = false := by
    rw [Bool.eq_false_iff, ← Nat.sub_sub_self (Nat.le_of_lt_succ hk)]
    exact fun hset => hno ⟨7 - k, by omega, hset⟩
  exact hclear.trans BitVec.getLsbD_zero.symm

/-- A sprite covers some pixel exactly when it has a 1 bit. -/
theorem exists_spriteCovers_iff {m : Memory} {base n ox oy : Nat} :
    (∃ px py, spriteCovers m base n ox oy px py) ↔ ∃ row < n, m.read (base + row) ≠ 0 := by
  constructor
  · rintro ⟨px, py, row, hrow, bit, -, -, -, hset⟩
    refine ⟨row, hrow, fun hzero => ?_⟩
    rw [hzero] at hset
    exact Bool.false_ne_true (BitVec.getLsbD_zero.symm.trans hset)
  · rintro ⟨row, hrow, hne⟩
    obtain ⟨bit, hbit, hset⟩ := exists_getLsbD_of_byte_ne_zero hne
    exact ⟨Fin.ofNat 64 (ox + bit), Fin.ofNat 32 (oy + row), row, hrow, bit, hbit, rfl, rfl, hset⟩

/-- A sprite of one full row covers the eight columns from its origin, modulo 64, of one line. -/
theorem spriteCovers_fullRow_iff {m : Memory} {base ox oy : Nat} (h : m.read base = 0xFF) {px : Fin 64} {py : Fin 32} :
    spriteCovers m base 1 ox oy px py ↔
      px.val ∈ (List.range 8).map (fun bit => (ox + bit) % 64) ∧ py.val = oy % 32 := by
  have hset : ∀ bit < 8, (0xFF : Byte).getLsbD (7 - bit) = true := by decide
  constructor
  · rintro ⟨row, hrow, bit, hbit, hx, hy, -⟩
    obtain rfl : row = 0 := by omega
    exact ⟨List.mem_map.2 ⟨bit, List.mem_range.2 hbit, hx.symm⟩, hy⟩
  · rintro ⟨hmem, hy⟩
    obtain ⟨bit, hbit, hx⟩ := List.mem_map.1 hmem
    have hbit := List.mem_range.1 hbit
    exact ⟨0, Nat.one_pos, bit, hbit, hx.symm, hy, h.symm ▸ hset bit hbit⟩

/-! ## The draw -/

/-- Where DRW's sprite has a 1 bit, from the state it starts in (R173). -/
abbrev State.covers (s : State) (x y : Reg) (n : Nibble) : Fin 64 → Fin 32 → Prop :=
  spriteCovers s.mem s.i.toNat n.toNat (s.reg x).toNat (s.reg y).toNat

/-- A sprite has at most 15 rows, so no two land on one line and `Canvas.drawRows_spec` speaks of it. -/
theorem drawn_spec (x y : Reg) (n : Nibble) (s : State) :
    (∀ px py, (s.covers x y n px py → Pixels.get (drawn x y n s).1 px py = !Pixels.get s.fb px py) ∧
      (¬ s.covers x y n px py → Pixels.get (drawn x y n s).1 px py = Pixels.get s.fb px py)) ∧
    ((drawn x y n s).2 = true ↔ ∃ px py, s.covers x y n px py ∧ Pixels.get s.fb px py = true) := by
  have hrows : (s.mem.readBytes s.ea (rowsOf n)).length ≤ 32 := by
    have hn : n.toNat < 16 := n.isLt
    rw [Memory.length_readBytes, rowsOf]
    omega
  have h := Canvas.drawRows_spec (s.reg x).toNat (s.reg y).toNat _ (s.fb, false) hrows
  simp only [rowsCover_readBytes_iff, Bool.false_eq_true, false_or] at h
  exact h

/-- The state DRW leaves when its rows are in memory: the canvas is drawn, then `VF` is the collision (R173). -/
def State.afterDrw (s : State) (x y : Reg) (n : Nibble) : State :=
  { s with fb := (drawn x y n s).1 }.setReg Config.flagReg (flagByte (drawn x y n s).2)

theorem exec_drw_of_fits {s : State} {n : Nibble} (h : n.toNat = 0 ∨ s.i.toNat + n.toNat ≤ 4096) (x y : Reg) :
    exec (.drw x y n) s = .next (s.afterDrw x y n) :=
  withRange_fits h

theorem State.reg_flagReg_afterDrw (s : State) (x y : Reg) (n : Nibble) :
    (s.afterDrw x y n).reg Config.flagReg = flagByte (drawn x y n s).2 :=
  State.reg_setReg_self ..

theorem onlyChanges_afterDrw (s : State) (x y : Reg) (n : Nibble) :
    OnlyChanges [Config.flagReg] [.pixels] s (s.afterDrw x y n) :=
  (onlyChanges_pixels s _).trans (onlyChanges_setReg _ Config.flagReg _)

/-- After the first of two draws the same sprite stands at the same place: neither memory nor `I` nor an origin other than
`VF` is changed (D19). -/
theorem State.covers_eq_of_onlyChanges {s t : State} {x y : Reg} (h : OnlyChanges [15] [.pixels] s t) (hx : x ≠ 15)
    (hy : y ≠ 15) (n : Nibble) : t.covers x y n = s.covers x y n := by
  obtain ⟨hreg, hpart⟩ := h
  have hi : t.i = s.i := hpart .index (by decide)
  have hmem : ∀ a, t.mem.read a = s.mem.read a := hpart .memory (by decide)
  unfold State.covers
  rw [hi, hreg x (by simpa using hx), hreg y (by simpa using hy), spriteCovers_congr hmem]

end Sys2Proof.Machine

/-! ## The obligations -/

namespace Sys2Proof.Proofs

open Sys2Proof Sys2Proof.Machine

/-- Settles O37: the one write is of the clear screen. -/
theorem clsClearsTheScreen : Obligations.ClsClearsTheScreen :=
  fun s => ⟨_, rfl, Pixels.get_clear, onlyChanges_pixels s Pixels.clear⟩

/-- Settles O38: the range fits, so the state is the one with the drawn canvas (`drawn_spec`). -/
theorem drwTogglesTheSprite : Obligations.DrwTogglesTheSprite := by
  intro s x y n hfit
  obtain ⟨hpixels, hhit⟩ := drawn_spec x y n s
  have hflag {b : Bool} (h : (drawn x y n s).2 = b) :
      (s.afterDrw x y n).reg 15 = flagByte b := (s.reg_flagReg_afterDrw x y n).trans (congrArg flagByte h)
  refine ⟨s.afterDrw x y n, exec_drw_of_fits (by omega) x y, onlyChanges_afterDrw s x y n,
    fun px py => (hpixels px py).1, fun px py => (hpixels px py).2,
    fun hcollision => hflag (hhit.2 hcollision), fun hnone => hflag (Bool.eq_false_iff.2 fun hset => ?_)⟩
  obtain ⟨px, py, hcov, hon⟩ := hhit.1 hset
  exact Bool.false_ne_true ((hnone px py hcov).symm.trans hon)

/-- Settles O39: both draws are O38 on the same covered pixels, so each of those is toggled twice; what the second draw finds
on is what the first found off. -/
theorem drawingTwiceRestores : Obligations.DrawingTwiceRestores := by
  intro s t x y n hx hy hfit hrun
  obtain ⟨t', hrun', hframe, hcovered, huncovered, hcollision, -⟩ := drwTogglesTheSprite s x y n (by omega)
  cases hrun.symm.trans hrun'
  have hi : t.i = s.i := hframe.2 .index (by decide)
  obtain ⟨u, hu, -, hcovered', huncovered', hcollision', hnone'⟩ := drwTogglesTheSprite t x y n (by rw [hi]; omega)
  have hsame : t.covers x y n = s.covers x y n := State.covers_eq_of_onlyChanges hframe hx hy n
  simp only [State.covers] at hsame
  rw [hsame] at hcovered' huncovered' hcollision' hnone'
  have hset : (∃ px py, s.covers x y n px py ∧ Pixels.get s.fb px py = false) → u.reg 15 = 1 := by
    rintro ⟨px, py, hcov, hoff⟩
    exact hcollision' ⟨px, py, hcov, by rw [hcovered px py hcov, hoff]; rfl⟩
  have hclear : (∀ px py, s.covers x y n px py → Pixels.get s.fb px py = true) → u.reg 15 = 0 := fun hon =>
    hnone' fun px py hcov => by rw [hcovered px py hcov, hon px py hcov]; rfl
  refine ⟨u, hu, Pixels.ext_get fun px py => ?_, hset, hclear, fun hvf hbit => ?_, fun hzero => ?_⟩
  · by_cases hcov : s.covers x y n px py
    · rw [hcovered' px py hcov, hcovered px py hcov, Bool.not_not]
    · rw [huncovered' px py hcov, huncovered px py hcov]
  · obtain ⟨px, py, hcov⟩ := exists_spriteCovers_iff.2 hbit
    refine hset ⟨px, py, hcov, Bool.eq_false_iff.2 fun hon => ?_⟩
    exact absurd (hvf.symm.trans (hcollision ⟨px, py, hcov, hon⟩)) (by decide)
  · refine hclear fun px py hcov => ?_
    obtain ⟨row, hrow, hne⟩ := exists_spriteCovers_iff.1 ⟨px, py, hcov⟩
    exact absurd (hzero row hrow) hne

/-- Settles O40: by O38 the changed pixels are the covered ones, which `spriteCovers_fullRow_iff` lists. -/
theorem spriteWrapsColumns : Obligations.SpriteWrapsColumns := by
  intro s x y hx hi hrow
  obtain ⟨t, hrun, -, hcovered, huncovered, -, -⟩ := drwTogglesTheSprite s x y 1 (.inr hi)
  refine ⟨t, hrun, fun px py => ?_⟩
  have hchanged : Pixels.get t.fb px py ≠ Pixels.get s.fb px py ↔ s.covers x y 1 px py :=
    ⟨fun hne => not_not.1 fun hcov => hne (huncovered px py hcov),
      fun hcov => by rw [hcovered px py hcov]; exact Bool.not_ne_self _⟩
  refine hchanged.trans ?_
  unfold State.covers
  rw [hx]
  exact spriteCovers_fullRow_iff hrow

end Sys2Proof.Proofs

/-! SUPPORT and PROOFS for the family 44_keypad_timers_random.md: RND (O41), the key skips (O42), the timer instructions (O43),
and LD Vx, K with a key down (O44) and without one (O45). -/

namespace Sys2Proof.Machine

open Sys2Proof

/-! ## The keypad -/

theorem skipOnKey_of_toNat_eq {b : Byte} {k : Fin 16} (h : b.toNat = k.val) (i : Instr) (wanted : Bool) (s : State) :
    skipOnKey i wanted b s = .next (s.skipIf (s.keys[k] == wanted)) := by
  have hkey : keyOf b = some k := (keyOf_eq_some (by omega)).trans (congrArg some (Fin.ext h))
  rw [skipOnKey, hkey]

/-- A key that is down below which every key is up is the one picked (R190, D12). -/
theorem pickKey_eq_some {keys : Keys} {k : Reg} (hdown : keys[k] = true) (hlow : ∀ j, j < k → keys[j] = false) :
    pickKey keys = some k := by
  cases hpick : pickKey keys with
  | none => exact absurd ((pickKey_eq_none.1 hpick k).symm.trans hdown) (by decide)
  | some j =>
    rcases lt_trichotomy j k with hlt | rfl | hgt
    · exact absurd ((hlow j hlt).symm.trans (pickKey_down hpick)) (by decide)
    · rfl
    · exact absurd ((pickKey_lowest hpick hgt).symm.trans hdown) (by decide)

theorem exec_ldVxK_of_some {s : State} {k : Reg} (h : pickKey s.keys = some k) (x : Reg) :
    exec (.ldVxK x) s = .next (s.setReg x (BitVec.ofNat 8 k.val)) := by
  rw [exec, execLdVxK, h]

theorem exec_ldVxK_of_none {s : State} (h : pickKey s.keys = none) (x : Reg) :
    exec (.ldVxK x) s = .next s.rewind := by
  rw [exec, execLdVxK, h]

theorem Keys.eq_replicate_of_up {keys : Keys} (h : ∀ k : Fin 16, keys[k] = false) :
    keys = Vector.replicate 16 false :=
  Vector.ext fun n hn => (h ⟨n, hn⟩).trans (Vector.getElem_replicate hn).symm

/-- Setting the keys as they are changes nothing, halted or not. -/
theorem setKeysCommand_keys_self (s : State) : setKeysCommand s.keys s = s := ite_self s

/-! ## The spin -/

theorem onlyChanges_tickCommand (s : State) : OnlyChanges [] [.delay, .sound] s (tickCommand s) :=
  ⟨fun k _ => State.reg_congr (tickCommand_v s) k, fun p hp => by cases p <;> simp_all [Part.same]⟩

/-- The spin of LD Vx, K takes back the cycle's advance (R190). -/
@[simp] theorem State.rewind_advance (s : State) : s.advance.rewind = s :=
  congrArg (fun a => { s with pc := a }) (BitVec.add_sub_cancel s.pc Config.instrBytes)

/-- The block stands at LD Vx, K, not halted, with every key up. -/
structure State.WaitsForKey (x : Reg) (s : State) : Prop where
  cause : s.fault.cause = .none
  pc_le : s.pc.toNat + 1 ≤ 0xFFF
  instr : decode s.nextWord = .instr (.ldVxK x)
  up : ∀ k : Fin 16, s.keys[k] = false

/-- The wait reads neither the registers, nor the timers, nor the schedule. -/
theorem State.WaitsForKey.of_onlyChanges {x : Reg} {regs : List Reg} {s t : State} (hs : s.WaitsForKey x)
    (h : OnlyChanges regs [.delay, .sound, .schedule] s t) : t.WaitsForKey x := by
  obtain ⟨-, hpart⟩ := h
  have hfault : t.fault = s.fault := hpart .fault (by decide)
  have hpc : t.pc = s.pc := hpart .pc (by decide)
  have hmem : ∀ a, t.mem.read a = s.mem.read a := hpart .memory (by decide)
  have hkeys : t.keys = s.keys := hpart .keys (by decide)
  have hword : t.nextWord = s.nextWord := by
    simp only [State.nextWord, hpc, hmem]
  exact ⟨hfault ▸ hs.cause, hpc ▸ hs.pc_le, hword ▸ hs.instr, hkeys ▸ hs.up⟩

theorem State.WaitsForKey.issue {x : Reg} {s : State} (hs : s.WaitsForKey x) : s.issue.WaitsForKey x :=
  ⟨hs.cause, hs.pc_le, hs.instr, hs.up⟩

/-- A STEP of a waiting block goes back to the same instruction, so only the schedule has moved on. -/
theorem State.WaitsForKey.step_of_step {x : Reg} {s : State} (hs : s.WaitsForKey x) (hnext : s.nextCommand = .step) :
    step s = .next s.issue := by
  have hpick : pickKey s.issue.advance.keys = none := pickKey_eq_none.2 hs.up
  rw [step_of_ready ⟨hnext, hs.cause, hs.pc_le⟩, execWord_of_instr hs.instr, exec_ldVxK_of_none hpick,
    State.rewind_advance]

/-- A turn of a waiting block in which no key goes down. -/
theorem State.WaitsForKey.exists_step {x : Reg} {s : State} (hs : s.WaitsForKey x)
    (hnext : s.nextCommand = .step ∨ s.nextCommand = .tick ∨ s.nextCommand = .setKeys (Vector.replicate 16 false)) :
    ∃ t, step s = .next t ∧ OnlyChanges [] [.delay, .sound, .schedule] s t ∧ t.schedule = s.schedule.rest := by
  have hissue : OnlyChanges [] [.schedule] s s.issue := onlyChanges_schedule s _
  rcases hnext with hstep | htick | hkeys
  · exact ⟨s.issue, hs.step_of_step hstep, hissue.mono (List.Subset.refl _) (by simp), rfl⟩
  · refine ⟨tickCommand s.issue, by rw [step_eq, htick]; rfl, ?_, tickCommand_schedule s.issue⟩
    exact (hissue.trans (onlyChanges_tickCommand s.issue)).mono (List.Subset.refl _) (by simp)
  · have hrun : runCommand s.nextCommand s.issue = .next s.issue := by
      rw [hkeys, ← Keys.eq_replicate_of_up hs.up]
      exact congrArg _ (setKeysCommand_keys_self s.issue)
    exact ⟨s.issue, hrun, hissue.mono (List.Subset.refl _) (by simp), rfl⟩

/-! ## Runs -/

theorem run_succ_of_step {M : Host.Core} {s t : M.State} (h : M.step s = .next t) (n : Nat) :
    M.run (n + 1) s = M.run n t := by
  rw [Host.Core.run, h]

/-- Turns in which no key goes down, in any interleaving (R190, R224). -/
theorem State.WaitsForKey.exists_run {x : Reg} {n : Nat} {s : State} (hs : s.WaitsForKey x)
    (hturns : ∀ c ∈ s.schedule.take n, c = .step ∨ c = .tick ∨ c = .setKeys (Vector.replicate 16 false)) :
    ∃ t, core.run n s = .next t ∧ OnlyChanges [] [.delay, .sound, .schedule] s t ∧
      t.schedule = s.schedule.drop n := by
  induction n generalizing s with
  | zero => exact ⟨s, rfl, OnlyChanges.refl _ _ s, rfl⟩
  | succ n ih =>
    rw [Schedule.take_succ, List.forall_mem_cons] at hturns
    obtain ⟨hnext, hrest⟩ := hturns
    obtain ⟨u, hstep, hframe, hsched⟩ := hs.exists_step hnext
    rw [← hsched] at hrest
    obtain ⟨t, hrun, hframe', hsched'⟩ := ih (hs.of_onlyChanges hframe) hrest
    refine ⟨t, (run_succ_of_step hstep n).trans hrun, ?_, ?_⟩
    · exact (hframe.trans hframe').mono (List.Subset.refl _) (by simp)
    · rw [hsched', hsched, Schedule.drop_succ]

/-- STEPs alone. -/
theorem State.WaitsForKey.run_steps {x : Reg} {n : Nat} {s : State} (hs : s.WaitsForKey x)
    (hturns : ∀ c ∈ s.schedule.take n, c = .step) :
    core.run n s = .next { s with schedule := s.schedule.drop n } := by
  induction n generalizing s with
  | zero => rfl
  | succ n ih =>
    rw [Schedule.take_succ, List.forall_mem_cons] at hturns
    obtain ⟨hnext, hrest⟩ := hturns
    exact (run_succ_of_step (hs.step_of_step hnext) n).trans (ih hs.issue hrest)

end Sys2Proof.Machine

/-! ## The obligations -/

namespace Sys2Proof.Proofs

open Sys2Proof Sys2Proof.Machine

/-- Settles O45: a waiting block is still waiting after any of the three turns. -/
theorem keyWaitSpinsForEver : Obligations.KeyWaitSpinsForEver := by
  intro s x n hcause hpc hinstr hup
  have hs : s.WaitsForKey x := ⟨hcause, hpc, hinstr, hup⟩
  exact ⟨hs.exists_run, hs.run_steps⟩

/-- Settles O41: a draw, then a write of the masked byte, whose bits outside the mask are therefore 0. -/
theorem randomByteIsMasked : Obligations.RandomByteIsMasked := by
  intro s x nn
  have hreg : (s.drawRand.setReg x (s.randByte &&& nn)).reg x = s.randByte &&& nn := State.reg_setReg_self ..
  refine ⟨_, rfl, hreg, ?_, rfl, (onlyChanges_drawRand s).trans (onlyChanges_setReg ..)⟩
  rw [hreg, BitVec.and_assoc, BitVec.and_not_self]
  exact BitVec.and_zero

/-- Settles O42: either is a skip on the state of the key. -/
theorem keySkips : Obligations.KeySkips :=
  fun s _ _ hk => ⟨exists_next_of_exec_skipIf (skipOnKey_of_toNat_eq hk _ true s) beq_iff_eq,
    exists_next_of_exec_skipIf (skipOnKey_of_toNat_eq hk _ false s) beq_iff_eq⟩

/-- Settles O43: each is one write, of a register or of a timer. -/
theorem timerInstructions : Obligations.TimerInstructions :=
  fun s x => ⟨⟨_, rfl, s.reg_setReg_self x s.dt, onlyChanges_setReg s x s.dt⟩,
    ⟨_, rfl, rfl, onlyChanges_delay s (s.reg x)⟩, ⟨_, rfl, rfl, onlyChanges_sound s (s.reg x)⟩⟩

/-- Settles O44: the lowest key that is down is the one picked, and its number fits a byte. -/
theorem keyWaitTakesTheLowestKey : Obligations.KeyWaitTakesTheLowestKey := by
  intro s x k hdown hlow
  refine ⟨_, exec_ldVxK_of_some (pickKey_eq_some hdown hlow) x, ?_, onlyChanges_setReg s x _⟩
  rw [State.reg_setReg_self]
  exact Nat.mod_eq_of_lt (by omega)

end Sys2Proof.Proofs

/-! SUPPORT and PROOFS for the family 60_exceptions.md: the halted block (O14, O15), the two flags `TRACE` (O16) and `STRICT`
(O17), the table of exceptions (O19), the timers under TICK (O46, O47), the events of a STEP (O12) and SETKEYS (O48). -/

namespace Sys2Proof.Machine

open Sys2Proof

/-! ## The halted block -/

theorem loadStatus_of_halted {s : State} (h : s.fault.cause ≠ .none) (bytes : List Byte) :
    loadStatus bytes s = .halted :=
  if_pos (State.halted_eq_true.2 h)

theorem tickBeep_of_halted {s : State} (h : s.fault.cause ≠ .none) : tickBeep s = false := by
  rw [tickBeep, State.halted_eq_true.2 h]
  rfl

theorem stepOutputs_of_halted {s : State} (h : s.fault.cause ≠ .none) : stepOutputs s = [] :=
  if_pos (State.halted_eq_true.2 h)

/-- Each command but RESET looks at the halted block first and leaves it as it is (R241). -/
theorem runCommand_of_halted {c : Command} {s : State} (h : s.fault.cause ≠ .none)
    (hc : ∀ trace strict, c ≠ .reset trace strict) : runCommand c s = .next s := by
  have hhalted : s.halted = true := State.halted_eq_true.2 h
  cases c with
  | reset trace strict => exact absurd rfl (hc trace strict)
  | load bytes => rw [runCommand, loadCommand, loadStatus_of_halted h]
  | setKeys keys => exact congrArg _ (if_pos hhalted)
  | step => exact if_pos hhalted
  | tick => exact congrArg _ (if_pos hhalted)

theorem step_of_halted {s : State} (h : s.fault.cause ≠ .none)
    (hnext : ∀ trace strict, s.nextCommand ≠ .reset trace strict) : step s = .next s.issue :=
  runCommand_of_halted (s := s.issue) h hnext

theorem run_of_halted {n : Nat} {s : State} (h : s.fault.cause ≠ .none)
    (hturns : ∀ trace strict, Command.reset trace strict ∉ s.schedule.take n) :
    core.run n s = .next { s with schedule := s.schedule.drop n } := by
  induction n generalizing s with
  | zero => rfl
  | succ n ih =>
    simp only [Schedule.take_succ, List.mem_cons, not_or] at hturns
    have hnext : ∀ trace strict, s.nextCommand ≠ .reset trace strict := fun a b => Ne.symm (hturns a b).1
    exact (run_succ_of_step (step_of_halted h hnext) n).trans (ih (s := s.issue) h fun a b => (hturns a b).2)

/-! ## The two configuration flags

An operation that does not read a flag does the same from a state in which the flag has another value, but for the flag
itself: it commutes with `State.mapFlags`. -/

/-- A state with `TRACE` and `STRICT` at other values. -/
def State.mapFlags (f g : Bool → Bool) (s : State) : State := { s with trace := f s.trace, strict := g s.strict }

/-- A change of the next state, where there is one. -/
def mapNext (F : State → State) : Host.Outcome State Fault Refusal → Host.Outcome State Fault Refusal
  | .next s => .next (F s)
  | .fault r => .fault r
  | .refused r => .refused r

section

variable (f g : Bool → Bool) (s : State)

theorem State.halted_mapFlags : (s.mapFlags f g).halted = s.halted := rfl

theorem skipIf_mapFlags (c : Bool) : (s.mapFlags f g).skipIf c = (s.skipIf c).mapFlags f g := by
  cases c <;> rfl

theorem withRange_mapFlags (i : Instr) (count : Nat) {u u' : State} (hu : u' = u.mapFlags f g) :
    withRange i count (s.mapFlags f g) u' = mapNext (State.mapFlags f g) (withRange i count s u) := by
  have hi : (s.mapFlags f g).i = s.i := rfl
  rw [withRange, withRange, hi, hu]
  cases firstOutside s.i count <;> rfl

theorem skipOnKey_mapFlags (i : Instr) (wanted : Bool) (b : Byte) :
    skipOnKey i wanted b (s.mapFlags f g) = mapNext (State.mapFlags f g) (skipOnKey i wanted b s) := by
  rw [skipOnKey, skipOnKey]
  cases keyOf b with
  | some k => exact congrArg _ (skipIf_mapFlags ..)
  | none => rfl

theorem execRet_mapFlags : execRet (s.mapFlags f g) = mapNext (State.mapFlags f g) (execRet s) := by
  rcases execRet_cases s with ⟨hsp, e⟩ | ⟨hsp, e⟩
  · rw [e]
    exact dif_neg hsp
  · rw [e]
    exact dif_pos hsp

theorem execCall_mapFlags (nnn : Addr12) :
    execCall nnn (s.mapFlags f g) = mapNext (State.mapFlags f g) (execCall nnn s) := by
  rcases execCall_cases nnn s with ⟨hsp, e⟩ | ⟨hsp, e⟩
  · rw [e]
    exact dif_pos hsp
  · rw [e]
    exact dif_neg hsp.not_lt

theorem execLdVxK_mapFlags (x : Reg) :
    execLdVxK x (s.mapFlags f g) = mapNext (State.mapFlags f g) (execLdVxK x s) := by
  have hkeys : (s.mapFlags f g).keys = s.keys := rfl
  rw [execLdVxK, execLdVxK, hkeys]
  cases pickKey s.keys <;> rfl

/-- No instruction reads either flag (R235, D15). -/
theorem exec_mapFlags (i : Instr) : exec i (s.mapFlags f g) = mapNext (State.mapFlags f g) (exec i s) := by
  cases i with
  | ret => exact execRet_mapFlags ..
  | call => exact execCall_mapFlags ..
  | seByte | sneByte | seReg | sneReg => exact congrArg _ (skipIf_mapFlags ..)
  | skp | sknp => exact skipOnKey_mapFlags ..
  | ldVxK => exact execLdVxK_mapFlags ..
  | drw | ldB | ldMemVx | ldVxMem => exact withRange_mapFlags _ _ _ _ _ rfl
  | cls | jp | ldByte | addByte | ldReg | orReg | andReg | xorReg | addReg | subReg | shrReg | subnReg | shlReg | ldI | rnd
    | ldVxDt | ldDtVx | ldStVx | addI | ldF => rfl

/-- An unrecognised word reads `STRICT`, so from here on `TRACE` alone may be at another value. -/
theorem execWord_mapFlags_trace (w : Word) :
    execWord w (s.mapFlags f id) = mapNext (State.mapFlags f id) (execWord w s) := by
  cases hw : decode w with
  | instr i => rw [execWord_of_instr hw, execWord_of_instr hw, exec_mapFlags]
  | rejected =>
    rw [execWord_of_rejected hw, execWord_of_rejected hw]
    rcases unknownWord_cases w s with ⟨hstrict, e⟩ | ⟨hstrict, e⟩
    · rw [e]
      exact unknownWord_of_strict w (s.mapFlags f id) hstrict
    · rw [e]
      exact unknownWord_of_not_strict w (s.mapFlags f id) hstrict

theorem stepCommand_mapFlags_trace :
    stepCommand (s.mapFlags f id) = mapNext (State.mapFlags f id) (stepCommand s) := by
  have hfetch : fetch (s.mapFlags f id) = fetch s := rfl
  rw [stepCommand, stepCommand, State.halted_mapFlags, hfetch]
  cases s.halted with
  | true => rfl
  | false =>
    cases fetch s with
    | outside a => rfl
    | word w => exact execWord_mapFlags_trace f s.advance w

theorem loadCommand_mapFlags (bytes : List Byte) :
    loadCommand bytes (s.mapFlags f g) = (loadCommand bytes s).mapFlags f g := by
  have hstatus : loadStatus bytes (s.mapFlags f g) = loadStatus bytes s := rfl
  rw [loadCommand, loadCommand, hstatus]
  cases loadStatus bytes s <;> rfl

theorem setKeysCommand_mapFlags (keys : Keys) :
    setKeysCommand keys (s.mapFlags f g) = (setKeysCommand keys s).mapFlags f g := by
  rw [setKeysCommand, setKeysCommand, State.halted_mapFlags]
  cases s.halted <;> rfl

theorem tickCommand_mapFlags : tickCommand (s.mapFlags f g) = (tickCommand s).mapFlags f g := by
  rw [tickCommand, tickCommand, State.halted_mapFlags]
  cases s.halted <;> rfl

theorem runCommand_mapFlags_trace {c : Command} (hc : ∀ trace strict, c ≠ .reset trace strict) :
    runCommand c (s.mapFlags f id) = mapNext (State.mapFlags f id) (runCommand c s) := by
  cases c with
  | reset trace strict => exact absurd rfl (hc trace strict)
  | load bytes => exact congrArg _ (loadCommand_mapFlags f id s bytes)
  | step => exact stepCommand_mapFlags_trace f s
  | setKeys keys => exact congrArg _ (setKeysCommand_mapFlags f id s keys)
  | tick => exact congrArg _ (tickCommand_mapFlags f id s)

end

/-! ## The table of exceptions -/

/-- The row of the table of R200 for an access at `I` outside memory (R204). -/
def accessFault (i : Instr) (s : State) : Option (FaultCause × Nat) :=
  if 0 < accessCount i ∧ 0xFFF < s.i.toNat + accessCount i - 1 then some (.addressFault, max s.i.toNat 0x1000) else none

/-- What the table of R200 says of an instruction is what it does: it raises the listed fault, with its own address and word
(R208, R209), or has a next state with `FAULT` as it was. -/
def MeetsFaultTable (i : Instr) (s : State) : Prop :=
  match faultOf i s with
  | some (c, n) => exec i s = .next (s.raise c s.pc0 (encode i) (BitVec.ofNat 17 n))
  | none => ∃ t, exec i s = .next t ∧ t.fault = s.fault

section

variable {i : Instr} {s : State}

theorem meetsFaultTable_iff_of_some {c : FaultCause} {n : Nat} (h : faultOf i s = some (c, n)) :
    MeetsFaultTable i s ↔ exec i s = .next (s.raise c s.pc0 (encode i) (BitVec.ofNat 17 n)) := by
  rw [MeetsFaultTable, h]

theorem meetsFaultTable_iff_of_none (h : faultOf i s = none) :
    MeetsFaultTable i s ↔ ∃ t, exec i s = .next t ∧ t.fault = s.fault := by
  rw [MeetsFaultTable, h]

/-- An instruction that checks its range: the table's bound on the last address is the check's bound on the end. -/
theorem meetsFaultTable_of_withRange {u : State} (hf : faultOf i s = accessFault i s)
    (he : exec i s = withRange i (accessCount i) s u) (hu : u.fault = s.fault) : MeetsFaultTable i s := by
  rcases withRange_cases i (accessCount i) s u with ⟨hfits, e⟩ | ⟨hpos, hout, e⟩
  · exact (meetsFaultTable_iff_of_none (hf.trans (if_neg (by omega)))).2 ⟨u, he.trans e, hu⟩
  · exact (meetsFaultTable_iff_of_some (hf.trans (if_pos (by omega)))).2 (he.trans e)

theorem meetsFaultTable_of_skipOnKey {wanted : Bool} {b : Byte}
    (hf : faultOf i s = if 15 < b.toNat then some (.keyIndexFault, b.toNat) else none)
    (he : exec i s = skipOnKey i wanted b s) : MeetsFaultTable i s := by
  rcases skipOnKey_cases i wanted b s with ⟨hkey, e⟩ | ⟨hnone, e⟩
  · exact (meetsFaultTable_iff_of_none (hf.trans (if_neg (by omega)))).2 ⟨_, he.trans e, State.skipIf_fault ..⟩
  · rw [meetsFaultTable_iff_of_some (hf.trans (if_pos hnone)), BitVec.ofNat_toNat]
    exact he.trans e

theorem meetsFaultTable_ret : MeetsFaultTable .ret s := by
  rcases execRet_cases s with ⟨hsp, e⟩ | ⟨hsp, e⟩
  · exact (meetsFaultTable_iff_of_none (i := .ret) (if_neg hsp)).2 ⟨_, e, rfl⟩
  · exact (meetsFaultTable_iff_of_some (i := .ret) (if_pos hsp)).2 e

theorem meetsFaultTable_call {nnn : Addr12} : MeetsFaultTable (.call nnn) s := by
  rcases execCall_cases nnn s with ⟨hsp, e⟩ | ⟨hsp, e⟩
  · exact (meetsFaultTable_iff_of_none (i := .call nnn) (if_neg hsp.ne)).2 ⟨_, e, rfl⟩
  · exact (meetsFaultTable_iff_of_some (i := .call nnn) (if_pos hsp)).2 e

/-- An instruction whose only row is that of an access, and that accesses nothing, raises no fault. -/
theorem meetsFaultTable_of_no_access {t : State} (hf : faultOf i s = accessFault i s) (hcount : accessCount i = 0)
    (he : exec i s = .next t) (ht : t.fault = s.fault) : MeetsFaultTable i s :=
  (meetsFaultTable_iff_of_none (hf.trans (if_neg (by omega)))).2 ⟨t, he, ht⟩

end

theorem meetsFaultTable (i : Instr) (s : State) : MeetsFaultTable i s := by
  cases i with
  | ret => exact meetsFaultTable_ret
  | call => exact meetsFaultTable_call
  | skp | sknp => exact meetsFaultTable_of_skipOnKey rfl rfl
  | drw | ldB | ldMemVx | ldVxMem => exact meetsFaultTable_of_withRange rfl rfl rfl
  | seByte | sneByte | seReg | sneReg => exact meetsFaultTable_of_no_access rfl rfl rfl (State.skipIf_fault ..)
  | ldVxK x =>
    rcases execLdVxK_cases x s with ⟨_, -, e⟩ | ⟨-, e⟩ <;> exact meetsFaultTable_of_no_access rfl rfl e rfl
  | cls | jp | ldByte | addByte | ldReg | orReg | andReg | xorReg | addReg | subReg | shrReg | subnReg | shlReg | ldI | rnd
    | ldVxDt | ldDtVx | ldStVx | addI | ldF => exact meetsFaultTable_of_no_access rfl rfl rfl rfl

/-! ## The timers under TICK -/

theorem toNat_countDown (t : Byte) : (countDown t).toNat = t.toNat - 1 := by
  unfold countDown
  split
  · next h => rw [h]; rfl
  · bv_omega

theorem tickBeep_of_not_halted {s : State} (h : s.fault.cause = .none) :
    tickBeep s = decide (s.st.toNat ≠ 0) := by
  rw [tickBeep, State.halted_eq_false.2 h, Bool.eq_iff_iff, decide_eq_true_iff]
  exact bne_byte_iff

theorem tickCommand_of_not_halted {s : State} (h : s.fault.cause = .none) :
    tickCommand s = { s with dt := countDown s.dt, st := countDown s.st } := by
  rw [tickCommand, State.halted_eq_false.2 h]
  rfl

/-- The turn of a TICK on a block that is not halted (R221). -/
theorem exists_step_of_tick {s : State} (hnext : s.nextCommand = .tick) (h : s.fault.cause = .none) :
    ∃ t, step s = .next t ∧ t.dt.toNat = s.dt.toNat - 1 ∧ t.st.toNat = s.st.toNat - 1 ∧
      t.schedule = s.schedule.rest ∧ OnlyChanges [] [.delay, .sound, .schedule] s t := by
  have htick : tickCommand s.issue = { s.issue with dt := countDown s.dt, st := countDown s.st } :=
    tickCommand_of_not_halted (s := s.issue) h
  refine ⟨tickCommand s.issue, by rw [step_eq, hnext]; rfl, ?_, ?_, tickCommand_schedule s.issue, ?_⟩
  · rw [htick]
    exact toNat_countDown s.dt
  · rw [htick]
    exact toNat_countDown s.st
  · exact ((onlyChanges_schedule s _).trans (onlyChanges_tickCommand s.issue)).mono (List.Subset.refl _) (by simp)

/-- n turns of TICK: none of them halts the block. -/
theorem exists_run_of_ticks {n : Nat} {s : State} (h : s.fault.cause = .none)
    (hturns : s.schedule.take n = List.replicate n .tick) :
    ∃ t, core.run n s = .next t ∧ t.dt.toNat = s.dt.toNat - n ∧ t.st.toNat = s.st.toNat - n ∧
      t.schedule = s.schedule.drop n ∧ OnlyChanges [] [.delay, .sound, .schedule] s t := by
  induction n generalizing s with
  | zero => exact ⟨s, rfl, rfl, rfl, rfl, OnlyChanges.refl _ _ s⟩
  | succ n ih =>
    rw [Schedule.take_succ, List.replicate_succ, List.cons.injEq] at hturns
    obtain ⟨hnext, hrest⟩ := hturns
    obtain ⟨u, hstep, hdt, hst, hsched, hframe⟩ := exists_step_of_tick hnext h
    have hfault : u.fault = s.fault := hframe.2 .fault (by decide)
    obtain ⟨t, hrun, hdt', hst', hsched', hframe'⟩ := ih (hfault ▸ h) (hsched ▸ hrest)
    refine ⟨t, (run_succ_of_step hstep n).trans hrun, by omega, by omega, ?_, ?_⟩
    · rw [hsched', hsched, Schedule.drop_succ]
    · exact (hframe.trans hframe').mono (List.Subset.refl _) (by simp)

/-! ## The events of a STEP -/

theorem unknownEvents_of_instr {w : Word} {i : Instr} (h : decode w = .instr i) (s : State) :
    unknownEvents w s = [] := by
  rw [unknownEvents, h]

theorem traceEvents_of_trace (w : Word) {s : State} (h : s.trace = true) :
    traceEvents w s = [.trace s.pc w (s.reg 0) (s.reg 1) (s.reg 2) (s.reg 3)] :=
  if_pos h

theorem traceEvents_of_not_trace (w : Word) {s : State} (h : s.trace = false) : traceEvents w s = [] := by
  rw [traceEvents, h]
  rfl

/-! ## SETKEYS -/

theorem setKeysCommand_of_not_halted {s : State} (h : s.fault.cause = .none) (keys : Keys) :
    setKeysCommand keys s = { s with keys := keys } := by
  rw [setKeysCommand, State.halted_eq_false.2 h]
  rfl

end Sys2Proof.Machine

/-! ## The obligations -/

namespace Sys2Proof.Proofs

open Sys2Proof Sys2Proof.Machine

/-- Settles O14: the halted block, as it is after the host's issuing, answers itself, and each output looks at `FAULT`
first. -/
theorem haltedBlockIsInert : Obligations.HaltedBlockIsInert := by
  intro s h hnext
  refine ⟨step_of_halted h hnext, fun hc => ?_, fun hc => ?_, fun bytes hc => ?_⟩
  · rw [outputs, hc, commandOutputs, stepOutputs_of_halted h]
  · rw [outputs, hc, commandOutputs, tickBeep_of_halted h]
  · rw [outputs, hc, commandOutputs, loadStatus_of_halted h]

/-- Settles O15: induction over the turns, each of them O14's. -/
theorem onlyResetLeavesTheHaltedState : Obligations.OnlyResetLeavesTheHaltedState :=
  fun _ _ h hturns => run_of_halted h hturns

/-- Settles O16: a turn commutes with a change of `TRACE`, because no command but RESET reads or writes it. -/
theorem traceHasNoInfluence : Obligations.TraceHasNoInfluence := by
  intro s t b hnext hstep
  have hrun := runCommand_mapFlags_trace (fun _ => b) s.issue hnext
  rw [← step_eq, hstep] at hrun
  exact hrun

/-- Settles O17: the turn executes the instruction (O8), and that commutes with a change of `STRICT`. -/
theorem strictGovernsUnrecognisedWordsOnly : Obligations.StrictGovernsUnrecognisedWordsOnly := by
  intro s t i b hready hi hstep
  rw [step_of_ready hready, execWord_of_instr hi] at hstep
  have hready' : (s.mapFlags id fun _ => b).ready := hready
  have hrun := exec_mapFlags id (fun _ => b) s.issue.advance i
  rw [hstep] at hrun
  exact ((step_of_ready hready').trans (execWord_of_instr hi _)).trans hrun

/-- Settles O19: every instruction does what its row of the table says, and a raise writes `FAULT` alone. -/
theorem faultsAreExactAndPrecise : Obligations.FaultsAreExactAndPrecise := by
  intro i s
  have htable := meetsFaultTable i s
  refine ⟨fun c n hf => ?_, fun hf => (meetsFaultTable_iff_of_none hf).1 htable⟩
  exact ⟨_, (meetsFaultTable_iff_of_some hf).1 htable, onlyChanges_raise .., rfl⟩

/-- Settles O47: induction over the turns, each of them O46's. -/
theorem timersStopAtZero : Obligations.TimersStopAtZero := fun _ _ h hturns => exists_run_of_ticks h hturns

/-- Settles O12: the two lists of events, each decided by its own condition. -/
theorem stepEvents : Obligations.StepEvents := by
  intro s hready
  rw [outputs_of_ready hready]
  refine ⟨?_, ?_, ?_, ?_⟩ <;> rintro ⟨_, hw⟩ htrace
  · rw [traceEvents_of_not_trace _ htrace, unknownEvents_of_instr hw, List.append_nil]
  · rw [traceEvents_of_trace _ htrace, unknownEvents_of_instr hw, List.append_nil]
  · rw [traceEvents_of_not_trace _ htrace, unknownEvents_of_rejected hw, List.nil_append]
  · rw [traceEvents_of_trace _ htrace, unknownEvents_of_rejected hw, List.singleton_append]

/-- Settles O46: the turn counts down, or is a turn of the halted block (O14). -/
theorem tickCountsDown : Obligations.TickCountsDown := by
  intro s hnext
  rw [outputs, hnext, commandOutputs]
  exact ⟨fun h => ⟨by rw [tickBeep_of_not_halted h], exists_step_of_tick hnext h⟩,
    fun h => ⟨by rw [tickBeep_of_halted h], step_of_halted h (by simp [hnext])⟩⟩

/-- Settles O48: the turn writes `KEYS` whole, or is a turn of the halted block (O14). -/
theorem setKeysReplacesAll : Obligations.SetKeysReplacesAll := by
  intro s keys hnext
  refine ⟨fun h => ?_, fun h => step_of_halted h (by simp [hnext])⟩
  have hkeys : step s = .next { s.issue with keys := keys } := by
    rw [step_eq, hnext, runCommand, setKeysCommand_of_not_halted (s := s.issue) h]
  exact ⟨_, hkeys, rfl, rfl,
    ((onlyChanges_schedule s _).trans (onlyChanges_keys s.issue keys)).mono (List.Subset.refl _) (by simp)⟩

end Sys2Proof.Proofs

/-! SUPPORT and PROOFS for the family 70_reset_and_hazards.md: what LOAD does in its three cases (O49), and the memory and
the registers that RESET leaves (O50). -/

namespace Sys2Proof.Machine

open Sys2Proof

/-! ## LOAD -/

theorem loadStatus_of_fits {s : State} {bytes : List Byte} (h : s.fault.cause = .none) (hlen : bytes.length ≤ 3584) :
    loadStatus bytes s = .ok := by
  rw [loadStatus, State.halted_eq_false.2 h]
  exact if_neg (not_lt.2 hlen)

theorem loadStatus_of_overlong {s : State} {bytes : List Byte} (h : s.fault.cause = .none)
    (hlen : 3584 < bytes.length) : loadStatus bytes s = .loadOverrun := by
  rw [loadStatus, State.halted_eq_false.2 h]
  exact if_pos hlen

/-- An image that fits is written from the program origin upwards (R256). -/
theorem loadCommand_of_fits {s : State} {bytes : List Byte} (h : s.fault.cause = .none) (hlen : bytes.length ≤ 3584) :
    loadCommand bytes s = { s with mem := s.mem.writeBytes 0x200 bytes } := by
  rw [loadCommand, loadStatus_of_fits h hlen]
  rfl

/-- A longer one leaves the block as it is (R257, D26). -/
theorem loadCommand_of_overlong {s : State} {bytes : List Byte} (h : s.fault.cause = .none)
    (hlen : 3584 < bytes.length) : loadCommand bytes s = s := by
  rw [loadCommand, loadStatus_of_overlong h hlen]

/-- The turn of a LOAD of an image that fits, on a block that is not halted: the bytes are read back in order. -/
theorem exists_step_of_load {s : State} {bytes : List Byte} (hwf : Memory.wf s.mem) (hnext : s.nextCommand = .load bytes)
    (h : s.fault.cause = .none) (hlen : bytes.length ≤ 3584) :
    ∃ t, step s = .next t ∧ (∀ j, ∀ hj : j < bytes.length, t.mem.read (0x200 + j) = bytes[j]) ∧
      MemorySameOutside 0x200 bytes.length s t ∧ t.schedule = s.schedule.rest ∧
      OnlyChanges [] [.memory, .schedule] s t := by
  have hstep : step s = .next { s.issue with mem := s.mem.writeBytes 0x200 bytes } := by
    rw [step_eq, hnext, runCommand, loadCommand_of_fits (s := s.issue) h hlen]
    rfl
  have hfit : 0x200 + bytes.length ≤ Config.memSize := Nat.add_le_add_left hlen 0x200
  refine ⟨_, hstep, fun j hj => ?_, fun a ha => ?_, rfl, ?_⟩
  · rw [Memory.read_writeBytes hwf hfit, if_pos (by omega), Nat.add_sub_cancel_left, List.getD_eq_getElem _ _ hj]
  · rw [Memory.read_writeBytes hwf hfit, if_neg ha]
  · exact ((onlyChanges_schedule s _).trans (onlyChanges_memory s.issue _)).mono (List.Subset.refl _) (by simp)

/-! ## RESET -/

theorem length_font : font.length = 80 := rfl

/-- What RESET leaves below and above the font table (R29). -/
theorem Memory.unlisted_of_outside_font {a : Nat} (h : a < 0x050 ∨ 0x0A0 ≤ a) : Memory.unlisted a = 0 := by
  rw [Memory.unlisted, Config.fontBase]
  rcases h with hbelow | habove
  · exact if_neg (by omega)
  · rw [if_pos (by omega), List.getD_eq_default _ _ (by rw [length_font]; omega)]

/-- What RESET leaves in the font table (R27, R29). -/
theorem Memory.unlisted_font {j : Nat} (h : j < 80) : some (Memory.unlisted (0x050 + j)) = font[j]? := by
  have hj : j < font.length := h
  rw [Memory.unlisted, Config.fontBase, if_pos (Nat.le_add_right _ _), Nat.add_sub_cancel_left,
    List.getD_eq_getElem _ _ hj, List.getElem?_eq_getElem hj]

theorem step_of_reset {s : State} {trace strict : Bool} (h : s.nextCommand = .reset trace strict) :
    step s = .next (resetCommand trace strict s.issue) := by
  rw [step_eq, h, runCommand]

theorem reg_resetCommand (trace strict : Bool) (s : State) (k : Reg) : (resetCommand trace strict s).reg k = 0 :=
  Vector.getElem_replicate k.isLt

theorem getElem_stack_resetCommand (trace strict : Bool) (s : State) (k : Fin 16) :
    (resetCommand trace strict s).stack[k] = 0 :=
  Vector.getElem_replicate k.isLt

theorem getElem_keys_resetCommand (trace strict : Bool) (s : State) (k : Fin 16) :
    (resetCommand trace strict s).keys[k] = false :=
  Vector.getElem_replicate k.isLt

end Sys2Proof.Machine

/-! ## The obligations -/

namespace Sys2Proof.Proofs

open Sys2Proof Sys2Proof.Machine

/-- Settles O49: the status decides between the write, the rejection and the turn of the halted block (O14). -/
theorem loadCopiesTheImage : Obligations.LoadCopiesTheImage := by
  intro s bytes hwf hnext
  rw [outputs, hnext, commandOutputs]
  refine ⟨fun h hlen => ?_, fun h hlen => ?_, fun h => ?_⟩
  · exact ⟨by rw [loadStatus_of_fits h hlen], exists_step_of_load hwf hnext h hlen⟩
  · have hstep : step s = .next s.issue := by
      rw [step_eq, hnext, runCommand, loadCommand_of_overlong (s := s.issue) h hlen]
    exact ⟨by rw [loadStatus_of_overlong h hlen], hstep⟩
  · exact ⟨by rw [loadStatus_of_halted h], step_of_halted h (by simp [hnext])⟩

/-- Settles O50: RESET puts the state of R29 in place without looking at the one before; its memory lists no cell, so it
reads as `Memory.unlisted`. -/
theorem resetClearsEverything : Obligations.ResetClearsEverything := by
  intro s trace strict hnext
  have hfont : ∀ j < 80, some ((resetCommand trace strict s.issue).mem.read (0x050 + j)) = font[j]? :=
    fun _ => Memory.unlisted_font
  have helsewhere : ∀ a, a < 0x050 ∨ 0x0A0 ≤ a → (resetCommand trace strict s.issue).mem.read a = 0 :=
    fun _ => Memory.unlisted_of_outside_font
  exact ⟨_, step_of_reset hnext, reg_resetCommand trace strict s.issue, rfl, rfl, rfl,
    getElem_stack_resetCommand trace strict s.issue, rfl, rfl, helsewhere, hfont, Pixels.get_clear,
    getElem_keys_resetCommand trace strict s.issue, rfl, rfl, rfl, rfl, rfl⟩

end Sys2Proof.Proofs
